-- ==== Sys2Proof/Word.lean ====
section
/-! DEFINITION. The words of the machine (00_scope.md rules R6 to R8): bytes, 16-bit words, register
and key indices. Every value is unsigned; a sum that the spec reduces `mod 2^w` is `BitVec` addition. -/

namespace Sys2Proof

/-- An 8-bit value: a general register, a timer, a byte of memory (R6). -/
abbrev Byte := BitVec 8

/-- A 16-bit value: an opcode, `pc`, `I`, an entry of the call stack (R6). -/
abbrev Word := BitVec 16

/-- The index of a general register V0 to VF, from a 4-bit opcode field (R20, R81). -/
abbrev RegIdx := Fin 16

/-- The index of a key, 0x0 to 0xF (R33). -/
abbrev KeyIdx := Fin 16

/-- `MEM_SIZE`: main memory is the 4096 bytes 0x000 to 0xFFF (R6, R50). -/
abbrev memSize : Nat := 0x1000

/-- `PROGRAM_BASE`: where `pc` starts and where a program image is placed (R6, R251). -/
abbrev programBase : Nat := 0x200

/-- `MAX_PROGRAM_LEN`: the bytes from 0x200 to 0xFFF (R6, conflict C2). -/
abbrev maxProgramLen : Nat := 3584

end Sys2Proof
end

