-- ==== Sys2Proof/Config.lean ====
section
/-! DEFINITION. What an implementation fixes (00_scope.md rule R6: `FONT`, `UNKNOWN_OPCODE_POLICY`) and the
machine's one free value, the random source (40_cycle_driver.md rule R115). -/

namespace Sys2Proof

/-- `UNKNOWN_OPCODE_POLICY` (30_encoding.md rule R88, decision D10). -/
inductive UnknownOpcodePolicy where
  /-- An unallocated opcode is reported and stepped over (the default). -/
  | skip
  /-- An unallocated opcode faults with `UnknownOpcode`. -/
  | fault
  deriving DecidableEq, Repr

/-- The named parameters of one core. They are fixed for a machine: no transaction writes them
(log entry 3). -/
structure Params where
  /-- `FONT`: the 80 glyph bytes that initialisation copies to 0x000 (R31). -/
  font : Vector Byte 80
  /-- `UNKNOWN_OPCODE_POLICY` (R88). -/
  unknownOpcode : UnknownOpcodePolicy
  deriving DecidableEq, Repr

/-- The spec's default glyphs, 16 of 5 bytes (10_state.md rule R31; its bytes are general knowledge,
decision D16). PRESUMED, log entry 2. -/
def Config.defaultFont : Vector Byte 80 := #v[
  0xF0, 0x90, 0x90, 0x90, 0xF0,   0x20, 0x60, 0x20, 0x20, 0x70,
  0xF0, 0x10, 0xF0, 0x80, 0xF0,   0xF0, 0x10, 0xF0, 0x10, 0xF0,
  0x90, 0x90, 0xF0, 0x10, 0x10,   0xF0, 0x80, 0xF0, 0x10, 0xF0,
  0xF0, 0x80, 0xF0, 0x90, 0xF0,   0xF0, 0x10, 0x20, 0x40, 0x40,
  0xF0, 0x90, 0xF0, 0x90, 0xF0,   0xF0, 0x90, 0xF0, 0x10, 0xF0,
  0xF0, 0x90, 0xF0, 0x90, 0x90,   0xE0, 0x90, 0xE0, 0x90, 0xE0,
  0xF0, 0x80, 0x80, 0x80, 0xF0,   0xE0, 0x90, 0x90, 0x90, 0xE0,
  0xF0, 0x80, 0xF0, 0x80, 0xF0,   0xF0, 0x80, 0xF0, 0x80, 0x80]

/-- The default parameters: the conventional font and the `Skip` policy (R6). -/
def Config.defaultParams : Params := ⟨Config.defaultFont, .skip⟩

/-- The random source: the byte of each draw, numbered from 0. A FREE VALUE: nothing is known of it, so
what is proved holds for every draw (R115, R161, decision D17). DESIGN CHOICE, log entry 1. -/
opaque Config.randomByte : Nat → Byte

end Sys2Proof
end

