-- ==== Sys2Proof/Syntax.lean ====
section
/-! DEFINITION. The instructions, one constructor per row of spec/opcode_table.json (30_encoding.md rule R85).

Operands are as rule R83 assembles them: `x`, `y` are register indices, `kk` an 8-bit immediate, `nnn` a
16-bit address (a 12-bit field, zero-extended), `n` a count. The fields an instruction decodes but does not
use (`n` of 5xyn and 9xyn, `y` of 8xy6 and 8xyE, rule R86) are kept, so that no bit of an opcode is lost. -/

namespace Sys2Proof

inductive Instr where
  /-- 00E0 `CLS` (R172) -/
  | cls
  /-- 00EE `RET` (R121) -/
  | ret
  /-- 1nnn `JP nnn` (R120) -/
  | jp (nnn : Word)
  /-- 2nnn `CALL nnn` (R122) -/
  | call (nnn : Word)
  /-- 3xkk `SE Vx, kk` (R124) -/
  | seImm (x : RegIdx) (kk : Byte)
  /-- 4xkk `SNE Vx, kk` (R125) -/
  | sneImm (x : RegIdx) (kk : Byte)
  /-- 5xyn `SE Vx, Vy` (R126); `n` is not compared -/
  | seReg (x y : RegIdx) (n : Nat)
  /-- 6xkk `LD Vx, kk` (R142) -/
  | ldImm (x : RegIdx) (kk : Byte)
  /-- 7xkk `ADD Vx, kk` (R143) -/
  | addImm (x : RegIdx) (kk : Byte)
  /-- 8xy0 `LD Vx, Vy` (R144) -/
  | ldReg (x y : RegIdx)
  /-- 8xy1 `OR Vx, Vy` (R145) -/
  | orReg (x y : RegIdx)
  /-- 8xy2 `AND Vx, Vy` (R146) -/
  | andReg (x y : RegIdx)
  /-- 8xy3 `XOR Vx, Vy` (R147) -/
  | xorReg (x y : RegIdx)
  /-- 8xy4 `ADD Vx, Vy` (R148) -/
  | addReg (x y : RegIdx)
  /-- 8xy5 `SUB Vx, Vy` (R149) -/
  | subReg (x y : RegIdx)
  /-- 8xy6 `SHR Vx` (R150); `y` is not used -/
  | shr (x y : RegIdx)
  /-- 8xy7 `SUBN Vx, Vy` (R151) -/
  | subnReg (x y : RegIdx)
  /-- 8xyE `SHL Vx` (R152); `y` is not used -/
  | shl (x y : RegIdx)
  /-- 9xyn `SNE Vx, Vy` (R127); `n` is not compared -/
  | sneReg (x y : RegIdx) (n : Nat)
  /-- Annn `LD I, nnn` (R183) -/
  | ldI (nnn : Word)
  /-- Bnnn `JP V0, nnn` (R123) -/
  | jpV0 (nnn : Word)
  /-- Cxkk `RND Vx, kk` (R160) -/
  | rnd (x : RegIdx) (kk : Byte)
  /-- Dxyn `DRW Vx, Vy, n` (R171) -/
  | drw (x y : RegIdx) (n : Nat)
  /-- Ex9E `SKP Vx` (R200) -/
  | skp (x : RegIdx)
  /-- ExA1 `SKNP Vx` (R201) -/
  | sknp (x : RegIdx)
  /-- Fx07 `LD Vx, DT` (R180) -/
  | ldVxDt (x : RegIdx)
  /-- Fx0A `LD Vx, K` (R202) -/
  | ldVxK (x : RegIdx)
  /-- Fx15 `LD DT, Vx` (R181) -/
  | ldDtVx (x : RegIdx)
  /-- Fx18 `LD ST, Vx` (R182) -/
  | ldStVx (x : RegIdx)
  /-- Fx1E `ADD I, Vx` (R184) -/
  | addIVx (x : RegIdx)
  /-- Fx29 `LD F, Vx` (R185) -/
  | ldFVx (x : RegIdx)
  /-- Fx33 `LD B, Vx` (R186) -/
  | ldBVx (x : RegIdx)
  /-- Fx55 `LD [I], Vx` (R187) -/
  | storeRegs (x : RegIdx)
  /-- Fx65 `LD Vx, [I]` (R188) -/
  | loadRegs (x : RegIdx)
  deriving DecidableEq, Repr

end Sys2Proof
end

