-- ==== Sys2Proof/Decode.lean ====
section
/-! DEFINITION. Decoding, total on every word and every byte string (30_encoding.md rules R80 to R87), and
the encoder. Opcodes are 2-byte big-endian; an opcode that matches no pattern is rejected under a name
that says which family it is of. The opcode values are those of rule R85 (PRESUMED, log entry 9). -/

namespace Sys2Proof

/-- Why bytes decode to no instruction. Rule R88 says what the core does with an unallocated opcode. -/
inductive DecodeError where
  /-- Fewer than two bytes are left. -/
  | truncated
  /-- 0x0000 to 0x0FFF except 00E0 and 00EE. -/
  | unallocatedFamily0 (op : Word)
  /-- 8xy8 to 8xyD and 8xyF. -/
  | unallocatedFamily8 (op : Word)
  /-- ExKK other than Ex9E, ExA1. -/
  | unallocatedFamilyE (op : Word)
  /-- FxKK other than the nine of rule R85. -/
  | unallocatedFamilyF (op : Word)
  /-- A high nibble above 0xF: no 16-bit word has one (`Laws.decodeWord_ne_noSuchFamily`). -/
  | noSuchFamily (op : Word)
  deriving DecidableEq, Repr

/-! ### Fields of an opcode (R81) -/

/-- The family, `op[15:12]`. -/
def opFamily (op : Word) : Nat := (op.extractLsb' 12 4).toNat

/-- The register index `x = op[11:8]`. -/
def opX (op : Word) : RegIdx := (op.extractLsb' 8 4).toFin

/-- The register index `y = op[7:4]`. -/
def opY (op : Word) : RegIdx := (op.extractLsb' 4 4).toFin

/-- The low nibble `n = op[3:0]`. -/
def opN (op : Word) : Nat := (op.extractLsb' 0 4).toNat

/-- The immediate `kk = op[7:0]`. -/
def opKk (op : Word) : Byte := op.extractLsb' 0 8

/-- The address `nnn = op[11:0]`, zero-extended to 16 bits (R83). -/
def opNnn (op : Word) : Word := (op.extractLsb' 0 12).zeroExtend 16

/-! ### The two-level dispatch (R84) -/

/-- Family 0 matches two full opcodes only. -/
def decodeFamily0 (op : Word) : Except DecodeError Instr :=
  if op = 0x00E0 then .ok .cls
  else if op = 0x00EE then .ok .ret
  else .error (.unallocatedFamily0 op)

/-- Family 8 switches on `op[3:0]`. -/
def decodeFamily8 (op : Word) : Except DecodeError Instr :=
  match opN op with
  | 0x0 => .ok (.ldReg (opX op) (opY op))
  | 0x1 => .ok (.orReg (opX op) (opY op))
  | 0x2 => .ok (.andReg (opX op) (opY op))
  | 0x3 => .ok (.xorReg (opX op) (opY op))
  | 0x4 => .ok (.addReg (opX op) (opY op))
  | 0x5 => .ok (.subReg (opX op) (opY op))
  | 0x6 => .ok (.shr (opX op) (opY op))
  | 0x7 => .ok (.subnReg (opX op) (opY op))
  | 0xE => .ok (.shl (opX op) (opY op))
  | _ => .error (.unallocatedFamily8 op)

/-- Family E switches on `op[7:0]`. -/
def decodeFamilyE (op : Word) : Except DecodeError Instr :=
  match (opKk op).toNat with
  | 0x9E => .ok (.skp (opX op))
  | 0xA1 => .ok (.sknp (opX op))
  | _ => .error (.unallocatedFamilyE op)

/-- Family F switches on `op[7:0]`. -/
def decodeFamilyF (op : Word) : Except DecodeError Instr :=
  match (opKk op).toNat with
  | 0x07 => .ok (.ldVxDt (opX op))
  | 0x0A => .ok (.ldVxK (opX op))
  | 0x15 => .ok (.ldDtVx (opX op))
  | 0x18 => .ok (.ldStVx (opX op))
  | 0x1E => .ok (.addIVx (opX op))
  | 0x29 => .ok (.ldFVx (opX op))
  | 0x33 => .ok (.ldBVx (opX op))
  | 0x55 => .ok (.storeRegs (opX op))
  | 0x65 => .ok (.loadRegs (opX op))
  | _ => .error (.unallocatedFamilyF op)

/-- The instruction an opcode stands for (R84, R85); every other family goes by the high nibble alone. -/
def decodeWord (op : Word) : Except DecodeError Instr :=
  match opFamily op with
  | 0x0 => decodeFamily0 op
  | 0x1 => .ok (.jp (opNnn op))
  | 0x2 => .ok (.call (opNnn op))
  | 0x3 => .ok (.seImm (opX op) (opKk op))
  | 0x4 => .ok (.sneImm (opX op) (opKk op))
  | 0x5 => .ok (.seReg (opX op) (opY op) (opN op))
  | 0x6 => .ok (.ldImm (opX op) (opKk op))
  | 0x7 => .ok (.addImm (opX op) (opKk op))
  | 0x8 => decodeFamily8 op
  | 0x9 => .ok (.sneReg (opX op) (opY op) (opN op))
  | 0xA => .ok (.ldI (opNnn op))
  | 0xB => .ok (.jpV0 (opNnn op))
  | 0xC => .ok (.rnd (opX op) (opKk op))
  | 0xD => .ok (.drw (opX op) (opY op) (opN op))
  | 0xE => decodeFamilyE op
  | 0xF => decodeFamilyF op
  | _ => .error (.noSuchFamily op)

/-- The opcode of two consecutive bytes: the lower address holds the upper half (R51). -/
def bigEndian (hi lo : Byte) : Word := hi ++ lo

/-- The bytes of an opcode as memory holds them, the lower address first (R51). -/
def opBytes (op : Word) : List Byte := [op.extractLsb' 8 8, op.extractLsb' 0 8]

/-- Decodes the first instruction of a byte string and gives the bytes that follow it (R80). -/
def decode : List Byte → Except DecodeError (Instr × List Byte)
  | hi :: lo :: rest =>
    match decodeWord (bigEndian hi lo) with
    | .ok i => .ok (i, rest)
    | .error e => .error e
  | _ => .error .truncated

/-! ### The encoder, format by format (R82) -/

/-- An opcode of four nibbles, the family first. -/
def packXyn (f x y n : Nat) : Word := BitVec.ofNat 16 (f * 0x1000 + x * 0x100 + y * 0x10 + n)

/-- Format `XKK` (and `X`, whose `kk` is its secondary code). -/
def packXkk (f x kk : Nat) : Word := BitVec.ofNat 16 (f * 0x1000 + x * 0x100 + kk)

/-- Format `NNN`. -/
def packNnn (f nnn : Nat) : Word := BitVec.ofNat 16 (f * 0x1000 + nnn)

/-- The opcode of a well-formed instruction (R85). -/
def encode : Instr → Word
  | .cls => 0x00E0
  | .ret => 0x00EE
  | .jp nnn => packNnn 0x1 nnn.toNat
  | .call nnn => packNnn 0x2 nnn.toNat
  | .seImm x kk => packXkk 0x3 x kk.toNat
  | .sneImm x kk => packXkk 0x4 x kk.toNat
  | .seReg x y n => packXyn 0x5 x y n
  | .ldImm x kk => packXkk 0x6 x kk.toNat
  | .addImm x kk => packXkk 0x7 x kk.toNat
  | .ldReg x y => packXyn 0x8 x y 0x0
  | .orReg x y => packXyn 0x8 x y 0x1
  | .andReg x y => packXyn 0x8 x y 0x2
  | .xorReg x y => packXyn 0x8 x y 0x3
  | .addReg x y => packXyn 0x8 x y 0x4
  | .subReg x y => packXyn 0x8 x y 0x5
  | .shr x y => packXyn 0x8 x y 0x6
  | .subnReg x y => packXyn 0x8 x y 0x7
  | .shl x y => packXyn 0x8 x y 0xE
  | .sneReg x y n => packXyn 0x9 x y n
  | .ldI nnn => packNnn 0xA nnn.toNat
  | .jpV0 nnn => packNnn 0xB nnn.toNat
  | .rnd x kk => packXkk 0xC x kk.toNat
  | .drw x y n => packXyn 0xD x y n
  | .skp x => packXkk 0xE x 0x9E
  | .sknp x => packXkk 0xE x 0xA1
  | .ldVxDt x => packXkk 0xF x 0x07
  | .ldVxK x => packXkk 0xF x 0x0A
  | .ldDtVx x => packXkk 0xF x 0x15
  | .ldStVx x => packXkk 0xF x 0x18
  | .addIVx x => packXkk 0xF x 0x1E
  | .ldFVx x => packXkk 0xF x 0x29
  | .ldBVx x => packXkk 0xF x 0x33
  | .storeRegs x => packXkk 0xF x 0x55
  | .loadRegs x => packXkk 0xF x 0x65

/-- The word an opcode table numbers `w` in `nbits` bits: bits above `nbits` are 0. -/
def tableOpcode (nbits w : Nat) : Word := BitVec.ofNat 16 (w % 2 ^ nbits)

/-- The instruction the decoder reads from the opcode whose bits are `w`, laid out as memory holds it. -/
def decodeTableWord (nbits w : Nat) : Option Instr :=
  match decode (opBytes (tableOpcode nbits w)) with
  | .ok (i, _) => some i
  | .error _ => none

end Sys2Proof
end

