-- ==== Sys2Proof/Machine/Flags.lean ====
section
/-! DEFINITION. Every flag value an instruction computes for VF (42_alu.md rule R141, 43_display.md rule R173). -/

namespace Sys2Proof.Machine

/-- A flag as VF holds it: 1 or 0. -/
def flagByte (b : Bool) : Byte := if b then 1 else 0

/-- Carry of an add: 1 iff the exact sum exceeds 255 (R148). -/
def carryFlag (a b : Byte) : Byte := flagByte (255 < a.toNat + b.toNat)

/-- Flag of `minuend - subtrahend`: 0 iff the subtrahend is greater, a borrow (R149, R151). -/
def noBorrowFlag (minuend subtrahend : Byte) : Byte := flagByte (!(minuend.toNat < subtrahend.toNat))

/-- The bit a right shift moves out, bit 0 (R150). -/
def shiftedOutRight (a : Byte) : Byte := a &&& 1

/-- The bit a left shift moves out, bit 7 (R152). -/
def shiftedOutLeft (a : Byte) : Byte := a >>> 7

/-- Collision of a draw: 1 iff a drawn bit met a set cell (R173). -/
def collisionFlag (hit : Bool) : Byte := flagByte hit

end Sys2Proof.Machine
end

