-- ==== Sys2Proof/Machine/State.lean ====
section
/-! DEFINITION. Everything the spec gives the machine (10_state.md), as plain data, and its reset value.

`Arch` is the spec's own state table, R20 to R36, piece by piece. `State` adds what lies outside the core
and is held so that one step is a function of the state: the core's fixed parameters, the position of the
random source, the host's schedule, and the outputs of the last transaction (log entries 3, 4, 5). -/

namespace Sys2Proof.Machine

/-- Main memory: `(address, byte)` cells, addresses strictly rising, no cell equal to what its address holds
after reset (`Memory.wf`); an unlisted address holds its reset contents (log entry 8). -/
abbrev Memory := List Host.Cell

/-- The framebuffer: 32 rows of 64 cells, `gfx[y][x]`, `true` for 1 (R32; log entry 13). -/
abbrev Gfx := Vector (Vector Bool 64) 32

/-- Fault causes with the information each records (60_exceptions.md rule R221). -/
inductive Cause where
  /-- 1: every fetch, when `pc + 1 > 0xFFF` (R222). -/
  | fetchOutOfBounds
  /-- 2: 2nnn, when `sp = 16` (R223). -/
  | stackOverflow
  /-- 3: 00EE, when `sp = 0` (R224). -/
  | stackUnderflow
  /-- 4: Dxyn, Fx33, Fx55, Fx65 with an address above 0xFFF; the lowest failing address (R225). -/
  | memoryOutOfBounds (addr : Nat)
  /-- 5: Ex9E, ExA1 with `V[x] >= 16`; the value (R226). -/
  | keyIndexOutOfRange (value : Byte)
  /-- 6: Fx29 with `V[x] > 0xF`; the value (R227). -/
  | fontDigitOutOfRange (value : Byte)
  /-- 7: an unallocated opcode under policy `Fault`; the opcode (R228). -/
  | unknownOpcode (op : Word)
  deriving DecidableEq, Repr

/-- What a faulted core holds: the cause and the `pc` of the faulting instruction (R229). -/
structure FaultRecord where
  cause : Cause
  pc : Word
  deriving DecidableEq, Repr

/-- Whether the core can execute (R35). -/
inductive RunState where
  /-- Ready for the next cycle. -/
  | running
  /-- Suspended by Fx0A, waiting for a key press to be stored into `V[x]`. -/
  | awaitingKey (x : RegIdx)
  /-- A run-time invariant violation occurred; only `Reset` leaves this state (R231). -/
  | faulted (record : FaultRecord)
  deriving DecidableEq, Repr

/-- What the host may issue, one at a time (40_cycle_driver.md rule R100). -/
inductive Transaction where
  | cycle
  | keyEvent (k : KeyIdx) (pressed : Bool)
  | loadProgram (image : List Byte)
  | clearDirty
  | reset
  deriving DecidableEq, Repr

/-- What a transaction returns to the host (R100). -/
inductive Reply where
  /-- `Cycle` completed its instruction and ticked the timers (R101). -/
  | completed
  /-- `Cycle` found or left the core waiting for a key (R101, R103). -/
  | suspended
  /-- `Cycle` found or left the core faulted (R101, R103). -/
  | faulted (record : FaultRecord)
  /-- `LoadProgram` placed the image (R109). -/
  | ok
  /-- `LoadProgram` rejected an image over `MAX_PROGRAM_LEN` (R109). -/
  | tooLarge
  /-- `LoadProgram` is not admitted after the first cycle or out of `Running` (R109). -/
  | refused
  /-- The other transactions return nothing. -/
  | done
  deriving DecidableEq, Repr

/-- The diagnostic report of an unallocated opcode: where it was fetched and what it was (R114). -/
structure Report where
  pc : Word
  op : Word
  deriving DecidableEq, Repr

/-- The architectural state, field by field as 10_state.md section 1 lists it. -/
structure Arch where
  /-- V0 to VF (R20, R21). -/
  v : Vector Byte 16
  /-- The address of the instruction being fetched and executed (R23). -/
  pc : Word
  /-- The index register `I` (R25). -/
  i : Word
  /-- The number of occupied stack entries, 0 to 16 (R26; log entry 12). -/
  sp : Fin 17
  /-- The call stack (R27). -/
  stack : Vector Word 16
  /-- The delay timer `DT` (R28). -/
  dt : Byte
  /-- The sound timer `ST` (R28). -/
  st : Byte
  /-- Main memory (R30). -/
  mem : Memory
  /-- The framebuffer (R32). -/
  gfx : Gfx
  /-- The key bitmap, `true` for pressed (R33). -/
  key : Vector Bool 16
  /-- The framebuffer was drawn on since the host last cleared the flag (R34). -/
  dirty : Bool
  /-- R35. -/
  runState : RunState
  /-- A cycle has been issued since reset (R36). -/
  started : Bool
  deriving DecidableEq, Repr

/-- The machine a step works on: the core, and the model's own record of what is outside it. -/
structure State extends Arch where
  /-- `FONT` and `UNKNOWN_OPCODE_POLICY` of this core; no step writes them (log entry 3). -/
  params : Params
  /-- How many bytes the random source has given (log entry 1). -/
  draws : Nat
  /-- The transactions the host will issue next, first one first; when it is empty the host issues
  `Cycle` (log entry 4). -/
  pending : List Transaction
  /-- What the last transaction returned (log entry 5). -/
  reply : Reply
  /-- The report the last transaction emitted, if it did (R114; log entry 5). -/
  report : Option Report
  deriving DecidableEq, Repr

/-- Reasons a step could stop outside the state the spec gives. There is none: a run-time violation is itself
a state of the core, `RunState.faulted`, which a step enters and keeps (R35, R230, R231; log entry 6). -/
inductive Fault where
  deriving DecidableEq, Repr

/-- Reasons a step could have no meaning. -/
inductive Refusal where
  /-- Raised by an arm of `exec` whose instruction has no meaning yet (safe). No arm raises it: all 34
  instructions are modelled. -/
  | notModelled (mnemonic : String)
  deriving DecidableEq, Repr

/-- The reset state of the core (70_reset_and_hazards.md rule R250). Memory lists nothing: the font and the
zeros are what unlisted addresses hold (`Params.resetByte`). -/
def Arch.reset : Arch where
  v := Vector.replicate 16 0
  pc := 0x200
  i := 0
  sp := 0
  stack := Vector.replicate 16 0
  dt := 0
  st := 0
  mem := []
  gfx := Vector.replicate 32 (Vector.replicate 64 false)
  key := Vector.replicate 16 false
  dirty := false
  runState := .running
  started := false

/-- The machine right after reset: the default parameters, no draw made, nothing scheduled, nothing put out
(log entry 7). -/
def State.reset : State where
  toArch := Arch.reset
  params := Config.defaultParams
  draws := 0
  pending := []
  reply := .done
  report := none

end Sys2Proof.Machine
end

