-- ==== Sys2Proof/Machine/Ops.lean ====
section
/-! DEFINITION. The named operations over memory, the call stack, `pc`, the timers and the fault record:
20_memory.md rules R50 to R56, 10_state.md rules R23, R27 to R29, 40_cycle_driver.md rule R104 and
60_exceptions.md rules R229, R230. -/

namespace Sys2Proof.Machine

/-! ### Main memory -/

/-- What an address holds after reset: the font at 0x000 to 0x04F, 0 elsewhere (R30, R250). It is also what an
unlisted address of `Memory` holds. -/
def resetByte (p : Params) (a : Nat) : Byte := if h : a < 80 then p.font[a] else 0

/-- The listed byte of an address. -/
def Memory.lookup : Memory → Nat → Option Byte
  | [], _ => none
  | c :: m, a => if c.1 = a then some c.2 else Memory.lookup m a

/-- The byte an address holds. -/
def Memory.read (p : Params) (m : Memory) (a : Nat) : Byte :=
  match m.lookup a with
  | some b => b
  | none => resetByte p a

/-- Drops the cell of an address. -/
def Memory.erase (m : Memory) (a : Nat) : Memory := m.filter fun c => c.1 ≠ a

/-- Lists a byte at an address, in the place the order gives it. -/
def Memory.put : Memory → Nat → Byte → Memory
  | [], a, b => [(a, b)]
  | c :: m, a, b =>
    if a < c.1 then (a, b) :: c :: m
    else if a = c.1 then (a, b) :: m
    else c :: Memory.put m a b

/-- Stores a byte and keeps the canonical form: the byte an address holds after reset is not listed. -/
def Memory.write (p : Params) (m : Memory) (a : Nat) (b : Byte) : Memory :=
  if b = resetByte p a then m.erase a else m.put a b

/-- The canonical form: addresses strictly rising, all inside the 4096 bytes, no cell at its reset value. -/
abbrev Memory.wf (p : Params) (m : Memory) : Prop :=
  m.Pairwise (fun c d => c.1 < d.1) ∧ ∀ c ∈ m, c.1 < memSize ∧ c.2 ≠ resetByte p c.1

/-- `mem[a]` (R53); an access checks its addresses first, by `lowestOutside`. -/
def State.readByte (s : State) (a : Nat) : Byte := s.mem.read s.params a

/-- `mem[a] <- b` (R54). There is no protection: any address of memory may be written (R61). -/
def State.writeByte (s : State) (a : Nat) (b : Byte) : State :=
  { s with mem := s.mem.write s.params a b }

/-- `mem[a], mem[a+1], …` receive the bytes of a list, in order. -/
def State.writeBytes (s : State) (a : Nat) : List Byte → State
  | [] => s
  | b :: bs => (s.writeByte a b).writeBytes (a + 1) bs

/-- The bytes `mem[a]` to `mem[a+n-1]`. -/
def State.readBytes (s : State) (a n : Nat) : List Byte := (List.range n).map fun k => s.readByte (a + k)

/-- The lowest of the addresses `a` to `a+n-1` that lies outside memory (R55, R56): addresses are exact
naturals, none wraps. -/
def lowestOutside (a n : Nat) : Option Nat :=
  ((List.range n).map (a + ·)).find? fun b => decide (0xFFF < b)

/-- The instruction fetch `MemRead(pc, 2)`: none when `pc + 1 > 0xFFF`; odd addresses are like even ones
(R52, R57). -/
def State.fetch (s : State) : Option Word :=
  if 0xFFF < s.pc.toNat + 1 then none
  else some ((s.readByte s.pc.toNat).zeroExtend 16 <<< 8 ||| (s.readByte (s.pc.toNat + 1)).zeroExtend 16)

/-! ### Faults: taking one is one operation, and there is no return from it (R230, R231) -/

/-- `raise Fault(cause)`: the core holds the cause and the `pc` of the instruction; nothing else is written. -/
def raiseFault (c : Cause) (s : State) : State := { s with runState := .faulted ⟨c, s.pc⟩ }

/-- The code of a cause (R221). -/
def Cause.code : Cause → Nat
  | .fetchOutOfBounds => 1
  | .stackOverflow => 2
  | .stackUnderflow => 3
  | .memoryOutOfBounds _ => 4
  | .keyIndexOutOfRange _ => 5
  | .fontDigitOutOfRange _ => 6
  | .unknownOpcode _ => 7

/-! ### The call stack (R27) -/

/-- `push(a)`: none when `sp = 16`. -/
def State.push (s : State) (a : Word) : Option State :=
  if h : s.sp.val < 16 then
    some { s with stack := s.stack.set s.sp.val a h, sp := ⟨s.sp.val + 1, by omega⟩ }
  else none

/-- `pop()`: none when `sp = 0`; the entry it reads is not cleared. -/
def State.pop (s : State) : Option (Word × State) :=
  if h : 0 < s.sp.val then
    some (s.stack[s.sp.val - 1]'(by omega), { s with sp := ⟨s.sp.val - 1, by omega⟩ })
  else none

/-! ### The program counter (R23) -/

/-- `pc <- target`. -/
def State.jump (s : State) (target : Word) : State := { s with pc := target }

/-- Advances `pc` by one instruction width. -/
def State.advance (s : State) : State := s.jump (s.pc + 2)

/-- Advances `pc` by two instruction widths if the skip is taken, else by one (R124 to R127, R200, R201). -/
def State.skipIf (s : State) (taken : Bool) : State := s.jump (s.pc + if taken then 4 else 2)

/-! ### The index register (R25) -/

/-- `I <- a`. -/
def State.setI (s : State) (a : Word) : State := { s with i := a }

/-! ### Timers (R28, R29, R104) -/

/-- `DT <- b`. -/
def State.setDt (s : State) (b : Byte) : State := { s with dt := b }

/-- `ST <- b`. -/
def State.setSt (s : State) (b : Byte) : State := { s with st := b }

/-- One count down, never below 0. -/
def countDown (t : Byte) : Byte := if 0 < t.toNat then t - 1 else t

/-- `Tick()`: the two timers count down, each on its own. -/
def State.tick (s : State) : State := { s with dt := countDown s.dt, st := countDown s.st }

/-- The output `audible = (ST != 0)` (R29). -/
def Arch.audible (a : Arch) : Bool := a.st != 0

/-! ### The framebuffer (R32) -/

/-- The cell `gfx[y][x]`. -/
def State.cell (s : State) (y : Fin 32) (x : Fin 64) : Bool := (s.gfx.get y).get x

/-- A new framebuffer, marked dirty (R34). -/
def State.setScreen (s : State) (g : Gfx) : State := { s with gfx := g, dirty := true }

/-! ### Keys and run state (R33, R35) -/

/-- `key[k] <- pressed`. -/
def State.setKey (s : State) (k : KeyIdx) (pressed : Bool) : State :=
  { s with key := s.key.set k.val pressed k.isLt }

/-- `run_state <- r`. -/
def State.setRunState (s : State) (r : RunState) : State := { s with runState := r }

/-- `started <- 1` (R36). -/
def State.markStarted (s : State) : State := { s with started := true }

/-- `dirty <- 0` (R34). -/
def State.clearDirtyFlag (s : State) : State := { s with dirty := false }

/-! ### Outputs (R100, R114) -/

/-- The transaction returns `r`. -/
def State.answer (s : State) (r : Reply) : State := { s with reply := r }

/-- The transaction emits the report `d`. -/
def State.emit (s : State) (d : Report) : State := { s with report := some d }

/-! ### The random source (R115) -/

/-- The byte of the next draw. -/
def State.nextDraw (s : State) : Byte := Config.randomByte s.draws

/-- Takes the draw. -/
def State.takeDraw (s : State) : State := { s with draws := s.draws + 1 }

end Sys2Proof.Machine
end

