-- ==== Sys2Proof/Machine/Operands.lean ====
section
/-! DEFINITION. The operand forms: a general register, `I + k`, a run of registers `V[0]..V[x]`
(10_state.md rules R20, R22; 20_memory.md rules R55, R58; 30_encoding.md rule R83). Immediates and addresses
come from the decoder as the values they stand for. -/

namespace Sys2Proof.Machine

/-- `V[r]`; no register is hardwired (R20). -/
def State.reg (s : State) (r : RegIdx) : Byte := s.v.get r

/-- `V[r] <- b`. -/
def State.setReg (s : State) (r : RegIdx) (b : Byte) : State := { s with v := s.v.set r.val b r.isLt }

/-- `VF`, the register the flag operations write (R21). -/
abbrev vf : RegIdx := 15

/-- Writes the destination, then the flag: with `x = F` the flag is what VF holds (R140, decision D4; log entry
10). -/
def State.setRegFlag (s : State) (x : RegIdx) (result flag : Byte) : State :=
  (s.setReg x result).setReg vf flag

/-- The address `I + k`, an exact natural number (R55). -/
def State.addrAt (s : State) (k : Nat) : Nat := s.i.toNat + k

/-- How many registers the run `V[0]..V[x]` holds: the bound is inclusive (R187, R188, conflict C7). -/
def runLength (x : RegIdx) : Nat := x.val + 1

/-- The values `V[0]..V[x]`, V0 first. -/
def State.regRun (s : State) (x : RegIdx) : List Byte := s.v.toList.take (runLength x)

/-- `V[r] <- mem[I + r]` for every `r` of the run `V[0]..V[x]`; the other registers stay. -/
def State.loadRegRun (s : State) (x : RegIdx) : State :=
  { s with v := Vector.ofFn fun r : RegIdx => if r ≤ x then s.readByte (s.addrAt r.val) else s.reg r }

end Sys2Proof.Machine
end

