-- ==== Sys2Proof/Machine/ControlFlow.lean ====
section
/-! DEFINITION. Jump, call, return and the register skips (41_control_flow.md, rules R120 to R129). -/

namespace Sys2Proof.Machine

/-- 1nnn (R120): `pc` is set and not advanced. -/
def execJp (nnn : Word) (s : State) : Host.Outcome State Fault Refusal := .next (s.jump nnn)

/-- 00EE (R121): pops the address of the CALL and advances from it; faults on an empty stack. -/
def execRet (s : State) : Host.Outcome State Fault Refusal :=
  match s.pop with
  | some (a, t) => .next (t.jump (a + 2))
  | none => .next (raiseFault .stackUnderflow s)

/-- 2nnn (R122): pushes its own address; faults on a full stack. -/
def execCall (nnn : Word) (s : State) : Host.Outcome State Fault Refusal :=
  match s.push s.pc with
  | some t => .next (t.jump nnn)
  | none => .next (raiseFault .stackOverflow s)

/-- Bnnn (R123): the index register is always V0. -/
def execJpV0 (nnn : Word) (s : State) : Host.Outcome State Fault Refusal :=
  .next (s.jump ((s.reg 0).zeroExtend 16 + nnn))

/-- 3xkk (R124). -/
def execSeImm (x : RegIdx) (kk : Byte) (s : State) : Host.Outcome State Fault Refusal :=
  .next (s.skipIf (s.reg x == kk))

/-- 4xkk (R125). -/
def execSneImm (x : RegIdx) (kk : Byte) (s : State) : Host.Outcome State Fault Refusal :=
  .next (s.skipIf (s.reg x != kk))

/-- 5xyn (R126); `n` is not compared (R86). -/
def execSeReg (x y : RegIdx) (s : State) : Host.Outcome State Fault Refusal :=
  .next (s.skipIf (s.reg x == s.reg y))

/-- 9xyn (R127); `n` is not compared (R86). -/
def execSneReg (x y : RegIdx) (s : State) : Host.Outcome State Fault Refusal :=
  .next (s.skipIf (s.reg x != s.reg y))

end Sys2Proof.Machine
end

