-- ==== Sys2Proof/Machine/Display.lean ====
section
/-! DEFINITION. Draw with collision detect, clear screen (43_display.md, rules R170 to R173). -/

namespace Sys2Proof.Machine

/-- Composites bit `7 - c` of a row byte at row `Y`, column `x0 + c`: a bit that is 1 and on the screen flips
its cell, and is a hit if the cell was set; a clipped bit does nothing, no coordinate wraps (R170, R173). -/
def plotBit (x0 Y : Nat) (row : Byte) (acc : Gfx × Bool) (c : Nat) : Gfx × Bool :=
  if row.getLsbD (7 - c) then
    if h : x0 + c < 64 ∧ Y < 32 then
      let line := acc.1.get ⟨Y, h.2⟩
      let old := line.get ⟨x0 + c, h.1⟩
      (acc.1.set Y (line.set (x0 + c) (!old) h.1) h.2, acc.2 || old)
    else acc
  else acc

/-- Composites one row byte, bit 7 first. -/
def plotRow (x0 Y : Nat) (row : Byte) (acc : Gfx × Bool) : Gfx × Bool :=
  (List.range 8).foldl (plotBit x0 Y row) acc

/-- Composites the rows of a sprite downwards from row `Y`. -/
def plotRows (x0 : Nat) : Nat → List Byte → Gfx × Bool → Gfx × Bool
  | _, [], acc => acc
  | Y, row :: rows, acc => plotRows x0 (Y + 1) rows (plotRow x0 Y row acc)

/-- The sprite at `(x0, y0)`: the new framebuffer and the collision signal (R173). -/
def drawSprite (x0 y0 : Nat) (rows : List Byte) (g : Gfx) : Gfx × Bool := plotRows x0 y0 rows (g, false)

/-- Dxyn (R171): all `n` sprite bytes are checked and read, clipped or not; then the sprite is composited, VF
receives the collision flag and `dirty` is set. -/
def execDrw (x y : RegIdx) (n : Nat) (s : State) : Host.Outcome State Fault Refusal :=
  match lowestOutside (s.addrAt 0) n with
  | some a => .next (raiseFault (.memoryOutOfBounds a) s)
  | none =>
    let drawn := drawSprite (s.reg x).toNat (s.reg y).toNat (s.readBytes (s.addrAt 0) n) s.gfx
    .next ((s.setScreen drawn.1).setReg vf (collisionFlag drawn.2)).advance

/-- 00E0 (R172): VF is unchanged. -/
def execCls (s : State) : Host.Outcome State Fault Refusal :=
  .next (s.setScreen (Vector.replicate 32 (Vector.replicate 64 false))).advance

end Sys2Proof.Machine
end

