-- ==== Sys2Proof/Machine/IndexMemoryTimers.lean ====
section
/-! DEFINITION. Timers, index register, font address, BCD store, register dump and load
(44_index_memory_timers.md, rules R180 to R188). The timer tick that follows is the cycle's (R104). -/

namespace Sys2Proof.Machine

/-- Fx07 (R180). -/
def execLdVxDt (x : RegIdx) (s : State) : Host.Outcome State Fault Refusal :=
  .next (s.setReg x s.dt).advance

/-- Fx15 (R181). -/
def execLdDtVx (x : RegIdx) (s : State) : Host.Outcome State Fault Refusal :=
  .next (s.setDt (s.reg x)).advance

/-- Fx18 (R182). -/
def execLdStVx (x : RegIdx) (s : State) : Host.Outcome State Fault Refusal :=
  .next (s.setSt (s.reg x)).advance

/-- Annn (R183). -/
def execLdI (nnn : Word) (s : State) : Host.Outcome State Fault Refusal :=
  .next (s.setI nnn).advance

/-- Fx1E (R184): wraps mod 2^16, with no flag. -/
def execAddIVx (x : RegIdx) (s : State) : Host.Outcome State Fault Refusal :=
  .next (s.setI (s.i + (s.reg x).zeroExtend 16)).advance

/-- Fx29 (R185): faults on a digit above 0xF. -/
def execLdFVx (x : RegIdx) (s : State) : Host.Outcome State Fault Refusal :=
  if 0xF < (s.reg x).toNat then .next (raiseFault (.fontDigitOutOfRange (s.reg x)) s)
  else .next (s.setI ((s.reg x).zeroExtend 16 * 5)).advance

/-- The decimal digits of a byte: hundreds, tens, units (R186). -/
def bcdDigits (b : Byte) : List Byte :=
  [BitVec.ofNat 8 (b.toNat / 100), BitVec.ofNat 8 (b.toNat / 10 % 10), BitVec.ofNat 8 (b.toNat % 10)]

/-- Stores consecutive bytes from `I` and goes on, or faults at the lowest failing address with no byte
written (R56); `I` is unmodified. -/
def storeAtI (bytes : List Byte) (s : State) : State :=
  match lowestOutside (s.addrAt 0) bytes.length with
  | some a => raiseFault (.memoryOutOfBounds a) s
  | none => (s.writeBytes (s.addrAt 0) bytes).advance

/-- Fx33 (R186). -/
def execLdBVx (x : RegIdx) (s : State) : Host.Outcome State Fault Refusal :=
  .next (storeAtI (bcdDigits (s.reg x)) s)

/-- Fx55 (R187). -/
def execStoreRegs (x : RegIdx) (s : State) : Host.Outcome State Fault Refusal :=
  .next (storeAtI (s.regRun x) s)

/-- Fx65 (R188). -/
def execLoadRegs (x : RegIdx) (s : State) : Host.Outcome State Fault Refusal :=
  match lowestOutside (s.addrAt 0) (runLength x) with
  | some a => .next (raiseFault (.memoryOutOfBounds a) s)
  | none => .next (s.loadRegRun x).advance

end Sys2Proof.Machine
end

