-- ==== Sys2Proof/Machine/Keys.lean ====
section
/-! DEFINITION. Key skips and wait-for-key (45_keys.md, rules R200 to R202). -/

namespace Sys2Proof.Machine

/-- Whether the key a register names is pressed; none when the value names no key (R200, R226). -/
def State.keyOf (s : State) (value : Byte) : Option Bool :=
  if h : value.toNat < 16 then some (s.key.get ⟨value.toNat, h⟩) else none

/-- Ex9E (R200). -/
def execSkp (x : RegIdx) (s : State) : Host.Outcome State Fault Refusal :=
  match s.keyOf (s.reg x) with
  | some pressed => .next (s.skipIf pressed)
  | none => .next (raiseFault (.keyIndexOutOfRange (s.reg x)) s)

/-- ExA1 (R201). -/
def execSknp (x : RegIdx) (s : State) : Host.Outcome State Fault Refusal :=
  match s.keyOf (s.reg x) with
  | some pressed => .next (s.skipIf (!pressed))
  | none => .next (raiseFault (.keyIndexOutOfRange (s.reg x)) s)

/-- Fx0A (R202): suspends the core at its own address; a later press event completes it (R108). -/
def execLdVxK (x : RegIdx) (s : State) : Host.Outcome State Fault Refusal :=
  .next (s.setRunState (.awaitingKey x))

end Sys2Proof.Machine
end

