-- ==== Sys2Proof/Machine/Cycle.lean ====
section
/-! DEFINITION. The cycle driver and the host's transactions (40_cycle_driver.md, rules R100 to R117;
30_encoding.md rule R88). A transaction answers its reply and report in `State.reply` and `State.report`. -/

namespace Sys2Proof.Machine

/-- An unallocated opcode (R88): reported and stepped over, or a fault, as the parameter says. -/
def execUnallocated (op : Word) (s : State) : State :=
  match s.params.unknownOpcode with
  | .skip => s.advance.emit ⟨s.pc, op⟩
  | .fault => raiseFault (.unknownOpcode op) s

/-- Ends a cycle after its instruction: a completed one ticks the timers once, a suspended or faulted one
does not (R101, R103, R104). -/
def endCycle (s : State) : State :=
  match s.runState with
  | .running => s.tick.answer .completed
  | .awaitingKey _ => s.answer .suspended
  | .faulted r => s.answer (.faulted r)

/-- Ends the cycle of an outcome. -/
def endOutcome : Host.Outcome State Fault Refusal → Host.Outcome State Fault Refusal
  | .next s => .next (endCycle s)
  | .fault f => .fault f
  | .refused r => .refused r

/-- Fetch, decode, execute, tick (R101, R102); the fetch bound is checked first (R232). -/
def runInstruction (s : State) : Host.Outcome State Fault Refusal :=
  match s.fetch with
  | none => .next (endCycle (raiseFault .fetchOutOfBounds s))
  | some op =>
    match decodeWord op with
    | .ok i => endOutcome (exec i s)
    | .error _ => .next (endCycle (execUnallocated op s))

/-- The `Cycle` transaction (R101): faulted and waiting cores are left as they are. -/
def cycle (s : State) : Host.Outcome State Fault Refusal :=
  match s.runState with
  | .faulted r => .next (s.answer (.faulted r))
  | .awaitingKey _ => .next (s.answer .suspended)
  | .running => runInstruction s.markStarted

/-- The `KeyEvent` transaction (R108): the bitmap is updated; a press completes a wait for a key, and that
completed cycle ticks the timers. -/
def keyEvent (k : KeyIdx) (pressed : Bool) (s : State) : State :=
  match s.runState with
  | .awaitingKey x =>
    if pressed then
      ((((s.setKey k pressed).setReg x (BitVec.ofNat 8 k.val)).advance.setRunState .running).tick).answer .done
    else (s.setKey k pressed).answer .done
  | .running => (s.setKey k pressed).answer .done
  | .faulted _ => (s.setKey k pressed).answer .done

/-- The `LoadProgram` transaction (R109): the checks come first, a rejected image changes nothing. -/
def loadProgram (image : List Byte) (s : State) : State :=
  if s.started ∨ s.runState ≠ .running then s.answer .refused
  else if maxProgramLen < image.length then s.answer .tooLarge
  else (s.writeBytes programBase image).answer .ok

/-- The `ClearDirty` transaction (R111). -/
def clearDirty (s : State) : State := s.clearDirtyFlag.answer .done

/-- The `Reset` transaction (R112, R250): the reset state of the core, whatever it was in. What is outside the
core goes on: its parameters, the random source, the host's schedule (log entry 7). -/
def resetCore (s : State) : State := State.answer { s with toArch := Arch.reset } .done

/-- One transaction (R100). -/
def transact (t : Transaction) (s : State) : Host.Outcome State Fault Refusal :=
  match t with
  | .cycle => cycle s
  | .keyEvent k pressed => .next (keyEvent k pressed s)
  | .loadProgram image => .next (loadProgram image s)
  | .clearDirty => .next (clearDirty s)
  | .reset => .next (resetCore s)

/-- The transaction the host issues next: the first one scheduled, or a `Cycle` (log entry 4). -/
def State.nextTransaction (s : State) : Transaction := s.pending.headD .cycle

/-- The state that transaction starts from: it is taken off the schedule, and no report is out yet. -/
def State.takeTransaction (s : State) : State := { s with pending := s.pending.tail, report := none }

/-- The host issues its next transaction. -/
def issueNext (s : State) : Host.Outcome State Fault Refusal := transact s.nextTransaction s.takeTransaction

/-- Places an opcode at `pc` in the order memory holds it, with the core ready to run it and no transaction
scheduled before the `Cycle` (log entry 11). Where `pc + 1 > 0xFFF` no opcode can stand there and the state
is only made ready. -/
def State.placeOpcode (s : State) (op : Word) : State :=
  let ready : State := { s with runState := .running, pending := [] }
  if s.pc.toNat + 1 ≤ 0xFFF then ready.writeBytes s.pc.toNat (opBytes op) else ready

end Sys2Proof.Machine
end

