-- ==== Sys2Proof/Machine/Step.lean ====
section
/-! DEFINITION. One step of the machine: the host's next transaction (40_cycle_driver.md rule R100). -/

namespace Sys2Proof.Machine

/-- One step: the transaction the host issues next, which is a `Cycle` when none is scheduled (R100, R101). -/
def step (s : State) : Host.Outcome State Fault Refusal := issueNext s

/-- The state with an opcode of spec/opcode_table.json where the next `Cycle` fetches. -/
def State.withFetchWord (s : State) (nbits w : Nat) : State := s.placeOpcode (tableOpcode nbits w)

end Sys2Proof.Machine
end

