-- ==== Sys2Proof/Safety.lean ====
section
/-! DEFINITION. The terms the claims use: a good run, every piece of state by name and what a change leaves
alone, the reset state, the invariant of the machine, what each instruction may change, sprites, runs of
pushes and pops. -/

namespace Sys2Proof.Machine

/-! ### Pieces of state and frames -/

/-- Every piece of state, down to one register, one byte, one cell. -/
inductive Part where
  | reg (r : RegIdx)
  | byte (a : Nat)
  | cell (y : Fin 32) (x : Fin 64)
  | stackEntry (j : Fin 16)
  | key (k : KeyIdx)
  | pc
  | i
  | sp
  | dt
  | st
  | dirty
  | runState
  | started
  | params
  | draws
  | pending
  | reply
  | report
  deriving DecidableEq, Repr

/-- A piece of state is the same in two states. A byte of memory is compared as it is read. -/
def Part.same (s t : State) : Part → Prop
  | .reg r => t.reg r = s.reg r
  | .byte a => t.readByte a = s.readByte a
  | .cell y x => t.cell y x = s.cell y x
  | .stackEntry j => t.stack.get j = s.stack.get j
  | .key k => t.key.get k = s.key.get k
  | .pc => t.pc = s.pc
  | .i => t.i = s.i
  | .sp => t.sp = s.sp
  | .dt => t.dt = s.dt
  | .st => t.st = s.st
  | .dirty => t.dirty = s.dirty
  | .runState => t.runState = s.runState
  | .started => t.started = s.started
  | .params => t.params = s.params
  | .draws => t.draws = s.draws
  | .pending => t.pending = s.pending
  | .reply => t.reply = s.reply
  | .report => t.report = s.report

/-- `t` differs from `s` at most in the pieces `may` names. -/
def OnlyChanges (may : Part → Prop) (s t : State) : Prop := ∀ p, ¬ may p → p.same s t

/-- What issuing a transaction changes around its effect: the host's schedule and the outputs (log entries
4, 5). -/
def Part.issuing (p : Part) : Prop := p = .pending ∨ p = .reply ∨ p = .report

/-! ### Runs -/

/-- The core has faulted: the run violated an invariant of the source (60_exceptions.md rule R220). -/
def State.isFaulted (s : State) : Prop := ∃ r, s.runState = .faulted r

/-- The instruction a running core will execute in its next `Cycle`: the opcode at `pc`, decoded. -/
def State.aboutToRun (s : State) (i : Instr) : Prop :=
  s.nextTransaction = .cycle ∧ s.runState = .running ∧ ∃ op, s.fetch = some op ∧ decodeWord op = .ok i

/-- Every field of the core as rule R250 lists it, for a core with these parameters. -/
structure AtReset (s : State) : Prop where
  regs : ∀ r, s.reg r = 0
  pc : s.pc = 0x200
  i : s.i = 0
  sp : s.sp = 0
  stack : ∀ j, s.stack.get j = 0
  dt : s.dt = 0
  st : s.st = 0
  audible : s.audible = false
  font : ∀ a : Fin 80, s.readByte a.val = s.params.font.get a
  zeros : ∀ a, 80 ≤ a → s.readByte a = 0
  cells : ∀ y x, s.cell y x = false
  keys : ∀ k, s.key.get k = false
  dirty : s.dirty = false
  runState : s.runState = .running
  started : s.started = false

/-! ### The invariant -/

/-- What every step keeps and reset has: memory is in its canonical form; `pc` never comes near its wrap (R24)
and a stacked address is one an instruction was fetched from; a waiting core stands at the Fx0A it waits for
(R35, R202); a fault record names the `pc` the core stopped at (R229, R230); before the first cycle a core
differs from reset only by what the host may write then, memory and keys (R108, R109). -/
structure Inv (s : State) : Prop where
  memWf : s.mem.wf s.params
  pcLow : s.pc.toNat ≤ 0x10FE
  stackLow : ∀ j : Fin 16, (s.stack.get j).toNat ≤ 0xFFE
  waiting : ∀ x, s.runState = .awaitingKey x → ∃ op, s.fetch = some op ∧ decodeWord op = .ok (.ldVxK x)
  faultPc : ∀ r, s.runState = .faulted r → r.pc = s.pc
  fresh : s.started = false → s.toArch = { Arch.reset with mem := s.mem, key := s.key }

/-! ### What each instruction may change -/

/-- How many bytes of data an instruction accesses, from `I` on (20_memory.md rule R58). -/
def accessCount : Instr → Nat
  | .drw _ _ n => n
  | .ldBVx _ => 3
  | .storeRegs x => runLength x
  | .loadRegs x => runLength x
  | .cls | .ret | .jp _ | .call _ | .seImm _ _ | .sneImm _ _ | .seReg _ _ _ | .ldImm _ _ | .addImm _ _
  | .ldReg _ _ | .orReg _ _ | .andReg _ _ | .xorReg _ _ | .addReg _ _ | .subReg _ _ | .shr _ _
  | .subnReg _ _ | .shl _ _ | .sneReg _ _ _ | .ldI _ | .jpV0 _ | .rnd _ _ | .skp _ | .sknp _ | .ldVxDt _
  | .ldVxK _ | .ldDtVx _ | .ldStVx _ | .addIVx _ | .ldFVx _ => 0

/-- The bytes an instruction stores to: `I` to `I + n - 1`. -/
def storedByte (s : State) (n : Nat) (p : Part) : Prop := ∃ k, k < n ∧ p = .byte (s.addrAt k)

/-- Every piece of state an instruction may change: the writers of 10_state.md rules R22 (registers), R25
(`I`), R26 (`sp`), R32 (cells), R37 and of 20_memory.md rule R58 (memory); `runState` where it may fault or
wait. -/
def footprint (s : State) : Instr → Part → Prop
  | .cls, p => (∃ y x, p = .cell y x) ∨ p = .dirty ∨ p = .pc
  | .ret, p => p = .sp ∨ p = .pc ∨ p = .runState
  | .call _, p => (∃ j : Fin 16, j.val = s.sp.val ∧ p = .stackEntry j) ∨ p = .sp ∨ p = .pc ∨ p = .runState
  | .jp _, p | .jpV0 _, p | .seImm _ _, p | .sneImm _ _, p | .seReg _ _ _, p | .sneReg _ _ _, p => p = .pc
  | .ldImm x _, p | .addImm x _, p | .ldReg x _, p | .orReg x _, p | .andReg x _, p | .xorReg x _, p
  | .ldVxDt x, p => p = .reg x ∨ p = .pc
  | .addReg x _, p | .subReg x _, p | .shr x _, p | .subnReg x _, p | .shl x _, p =>
    p = .reg x ∨ p = .reg vf ∨ p = .pc
  | .rnd x _, p => p = .reg x ∨ p = .draws ∨ p = .pc
  | .drw _ _ _, p => (∃ y x, p = .cell y x) ∨ p = .reg vf ∨ p = .dirty ∨ p = .pc ∨ p = .runState
  | .skp _, p | .sknp _, p => p = .pc ∨ p = .runState
  | .ldVxK _, p => p = .runState
  | .ldDtVx _, p => p = .dt ∨ p = .pc
  | .ldStVx _, p => p = .st ∨ p = .pc
  | .ldI _, p | .addIVx _, p => p = .i ∨ p = .pc
  | .ldFVx _, p => p = .i ∨ p = .pc ∨ p = .runState
  | .ldBVx _, p => storedByte s 3 p ∨ p = .pc ∨ p = .runState
  | .storeRegs x, p => storedByte s (runLength x) p ∨ p = .pc ∨ p = .runState
  | .loadRegs x, p => (∃ r, r ≤ x ∧ p = .reg r) ∨ p = .pc ∨ p = .runState

/-! ### Sprites -/

/-- Dxyn with these operands draws the cell at row `Y`, column `X`: a bit `7 - c` of a sprite byte `mem[I + r]`
is 1 and lands there (43_display.md rule R170). -/
def spriteDraws (s : State) (x y : RegIdx) (n : Nat) (Y : Fin 32) (X : Fin 64) : Prop :=
  ∃ r c : Nat, r < n ∧ c < 8 ∧ Y.val = (s.reg y).toNat + r ∧ X.val = (s.reg x).toNat + c ∧
    (s.readByte (s.addrAt r)).getLsbD (7 - c) = true

/-! ### Runs of pushes and pops -/

/-- Pushes a list of addresses, the first one first; none if the stack fills up. -/
def State.pushAll (s : State) : List Word → Option State
  | [] => some s
  | a :: as => (s.push a).bind fun t => t.pushAll as

/-- Pops `n` addresses, in the order they come; none if the stack runs empty. -/
def State.popMany (s : State) : Nat → Option (List Word × State)
  | 0 => some ([], s)
  | n + 1 => s.pop.bind fun (a, t) => (t.popMany n).map fun (as, u) => (a :: as, u)

end Sys2Proof.Machine
end

