-- ==== Sys2Proof/Certificates/Slice0/Obligations.lean ====
section
/-! DEFINITION. What is claimed of the model, for the provers: encodings, the cycle and the host's transactions,
each instruction's result and frame, and the rules of the whole machine. -/

open Sys2Proof Sys2Proof.Machine

/-! ### Encoding -/

/-- Decoding the bytes of an encoded well-formed instruction gives it back, with every operand, and leaves the
bytes that follow it (R80 to R86). -/
def Obligations.EncodedInstructionDecodesToItself : Prop :=
  ∀ (i : Instr) (rest : List Byte), i.wellFormed = true → decode (opBytes (encode i) ++ rest) = .ok (i, rest)

/-- An opcode that decodes is the encoding of what it decodes to, which is well formed: no bit of an opcode is
dropped and no two opcodes share an instruction (R85, R86). -/
def Obligations.DecodedOpcodeEncodesBack : Prop :=
  ∀ (op : Word) (i : Instr), decodeWord op = .ok i → i.wellFormed = true ∧ encode i = op

/-- The opcodes that decode to no instruction are exactly those rule R87 lists. -/
def Obligations.RejectedOpcodesAreTheUnallocated : Prop :=
  ∀ op : Word, (∃ e, decodeWord op = .error e) ↔
    (op.toNat ≤ 0x0FFF ∧ op ≠ 0x00E0 ∧ op ≠ 0x00EE) ∨
    (op.toNat / 0x1000 = 0x8 ∧ op.toNat % 0x10 ∈ [0x8, 0x9, 0xA, 0xB, 0xC, 0xD, 0xF]) ∨
    (op.toNat / 0x1000 = 0xE ∧ op.toNat % 0x100 ∉ [0x9E, 0xA1]) ∨
    (op.toNat / 0x1000 = 0xF ∧
      op.toNat % 0x100 ∉ [0x07, 0x0A, 0x15, 0x18, 0x1E, 0x29, 0x33, 0x55, 0x65])

/-- Words written out from the opcode map decode to the instructions they stand for (R85). -/
def Obligations.SampleOpcodesDecode : Prop :=
  decodeWord 0x00EE = .ok .ret ∧ decodeWord 0x2208 = .ok (.call 0x208) ∧
  decodeWord 0x5123 = .ok (.seReg 1 2 3) ∧ decodeWord 0x8014 = .ok (.addReg 0 1) ∧
  decodeWord 0xD345 = .ok (.drw 3 4 5) ∧ decodeWord 0xE29E = .ok (.skp 2) ∧ decodeWord 0xF265 = .ok (.loadRegs 2) ∧
  decodeWord 0x8128 = .error (.unallocatedFamily8 0x8128)

/-! ### The cycle -/

/-- A running core fetches the big-endian word at `pc` and `pc + 1`, odd or even; when `pc + 1 > 0xFFF` its
cycle faults `FetchOutOfBounds` instead, and nothing but the run state changes (R52, R57, R222). -/
def Obligations.FetchReadsTwoBytesOrFaults : Prop :=
  ∀ s : State,
    (s.pc.toNat + 1 ≤ 0xFFF → ∃ op : Word, s.fetch = some op ∧
      op.toNat = (s.readByte s.pc.toNat).toNat * 0x100 + (s.readByte (s.pc.toNat + 1)).toNat) ∧
    (0xFFF < s.pc.toNat + 1 → s.nextTransaction = .cycle → s.runState = .running →
      ∃ t, step s = .next t ∧ t.runState = .faulted ⟨.fetchOutOfBounds, s.pc⟩ ∧
        t.reply = .faulted ⟨.fetchOutOfBounds, s.pc⟩ ∧ t.started = true ∧
        OnlyChanges (fun p => p = .runState ∨ p = .started ∨ p.issuing) s t)

/-- When the bytes at `pc` of a running core decode to `i`, the step that issues a `Cycle` marks the core
started, is `exec i`, and then ends the cycle: a core left running ticks its timers, one left waiting or
faulted does not (R101, R102, R103). -/
def Obligations.StepRunsDecodedInstruction : Prop :=
  ∀ (s : State) (i : Instr), s.nextTransaction = .cycle → s.runState = .running → s.pc.toNat + 1 ≤ 0xFFF →
    decode [s.readByte s.pc.toNat, s.readByte (s.pc.toNat + 1)] = .ok (i, []) →
    (step s = endOutcome (exec i { s with started := true, pending := s.pending.tail, report := none })) ∧
    ∀ t, exec i { s with started := true, pending := s.pending.tail, report := none } = .next t →
      (t.runState = .running →
        step s = .next { t with dt := countDown t.dt, st := countDown t.st, reply := .completed }) ∧
      (∀ x, t.runState = .awaitingKey x → step s = .next { t with reply := .suspended }) ∧
      (∀ r, t.runState = .faulted r → step s = .next { t with reply := .faulted r })

/-- An unallocated opcode under `Skip` is reported with its `pc` and stepped over, and the cycle completes with
its tick; under `Fault` the core faults `UnknownOpcode` (R88, R114, R228). -/
def Obligations.UnallocatedOpcodeFollowsPolicy : Prop :=
  ∀ (s : State) (op : Word) (e : DecodeError), s.nextTransaction = .cycle → s.runState = .running →
    s.fetch = some op → decodeWord op = .error e →
    (s.params.unknownOpcode = .skip → ∃ t, step s = .next t ∧ t.report = some ⟨s.pc, op⟩ ∧
      t.reply = .completed ∧ t.pc = s.pc + 2 ∧ t.started = true ∧
      t.dt.toNat = s.dt.toNat - 1 ∧ t.st.toNat = s.st.toNat - 1 ∧
      OnlyChanges (fun p => p = .pc ∨ p = .dt ∨ p = .st ∨ p = .started ∨ p.issuing) s t) ∧
    (s.params.unknownOpcode = .fault → ∃ t, step s = .next t ∧
      t.runState = .faulted ⟨.unknownOpcode op, s.pc⟩ ∧ t.reply = .faulted ⟨.unknownOpcode op, s.pc⟩ ∧
      t.report = none ∧ t.started = true ∧
      OnlyChanges (fun p => p = .runState ∨ p = .started ∨ p.issuing) s t)

/-- A report is emitted by no other step: one that reports executed an unallocated opcode of a running core
under `Skip` (R114). -/
def Obligations.ReportOnlyForUnallocatedOpcode : Prop :=
  ∀ (s t : State) (d : Report), step s = .next t → t.report = some d →
    s.nextTransaction = .cycle ∧ s.runState = .running ∧ s.params.unknownOpcode = .skip ∧ d.pc = s.pc ∧
    s.fetch = some d.op ∧ ∃ e, decodeWord d.op = .error e

/-- Every state has a next state: nothing the spec describes ends a run (R230, R231; log entry 6). -/
def Obligations.StepAlwaysAnswersNext : Prop := ∀ s : State, ∃ t, step s = .next t

/-- Faults are precise: a cycle that faults writes the run state, `started`, and nothing else of the core; its
record names the faulting `pc` and is what the cycle returns (R230). -/
def Obligations.FaultChangesOnlyRunState : Prop :=
  ∀ (s t : State) (r : FaultRecord), s.nextTransaction = .cycle → s.runState = .running →
    step s = .next t → t.runState = .faulted r →
    r.pc = s.pc ∧ t.started = true ∧ t.reply = .faulted r ∧
    OnlyChanges (fun p => p = .runState ∨ p = .started ∨ p.issuing) s t

/-- A faulted core executes nothing and keeps its record: `Cycle` returns it and changes nothing, a key event
updates its key only, a load is refused, and only `Reset` leaves the state (R231, with R109, R111, R112). -/
def Obligations.FaultedCoreStaysUntilReset : Prop :=
  ∀ (s : State) (r : FaultRecord), s.runState = .faulted r → ∃ t, step s = .next t ∧
    (s.nextTransaction = .cycle → t.toArch = s.toArch ∧ t.reply = .faulted r) ∧
    (∀ k b, s.nextTransaction = .keyEvent k b →
      t.key.get k = b ∧ OnlyChanges (fun p => p = .key k ∨ p.issuing) s t) ∧
    (∀ image, s.nextTransaction = .loadProgram image → t.toArch = s.toArch ∧ t.reply = .refused) ∧
    (s.nextTransaction = .clearDirty → t.toArch = { s.toArch with dirty := false }) ∧
    (s.nextTransaction ≠ .reset → t.runState = .faulted r) ∧
    (s.nextTransaction = .reset → t.toArch = Arch.reset)

/-- The timers count down once, never below 0, when a cycle completes, after its instruction, and when a key
press completes a suspended one; at no other time does a step but `Reset` change them (R104). -/
def Obligations.TimersTickOncePerCompletedCycle : Prop :=
  ∀ s t : State, step s = .next t →
    (∀ op, s.nextTransaction = .cycle → s.runState = .running → s.fetch = some op → t.runState = .running →
      t.dt.toNat = (match decodeWord op with | .ok (.ldDtVx x) => s.reg x | _ => s.dt).toNat - 1 ∧
      t.st.toNat = (match decodeWord op with | .ok (.ldStVx x) => s.reg x | _ => s.st).toNat - 1) ∧
    (∀ k x, s.nextTransaction = .keyEvent k true → s.runState = .awaitingKey x →
      t.dt.toNat = s.dt.toNat - 1 ∧ t.st.toNat = s.st.toNat - 1) ∧
    (¬ (s.nextTransaction = .cycle ∧ s.runState = .running ∧ t.runState = .running) →
      ¬ (∃ k x, s.nextTransaction = .keyEvent k true ∧ s.runState = .awaitingKey x) →
      s.nextTransaction ≠ .reset → t.dt = s.dt ∧ t.st = s.st)

/-- A `Cycle` of a core that waits for a key changes nothing of it, not even the timers, and returns
`Suspended` (R101, R240). -/
def Obligations.WaitingCycleChangesNothing : Prop :=
  ∀ (s : State) (x : RegIdx), s.nextTransaction = .cycle → s.runState = .awaitingKey x →
    ∃ t, step s = .next t ∧ t.toArch = s.toArch ∧ t.reply = .suspended

/-! ### The host's other transactions -/

/-- `KeyEvent` sets its key; a press while the core waits for a key also stores the key's index, advances
past the Fx0A, resumes the core and ticks the timers; in any other case nothing else changes (R108). -/
def Obligations.KeyEventSetsKeyAndCompletesWait : Prop :=
  ∀ (s : State) (k : KeyIdx) (pressed : Bool), s.nextTransaction = .keyEvent k pressed →
    ∃ t, step s = .next t ∧ t.key.get k = pressed ∧
      (∀ x, s.runState = .awaitingKey x → pressed = true →
        (t.reg x).toNat = k.val ∧ t.pc = s.pc + 2 ∧ t.runState = .running ∧
        t.dt.toNat = s.dt.toNat - 1 ∧ t.st.toNat = s.st.toNat - 1 ∧
        OnlyChanges (fun p => p = .key k ∨ p = .reg x ∨ p = .pc ∨ p = .runState ∨ p = .dt ∨ p = .st ∨
          p.issuing) s t) ∧
      ((∀ x, s.runState ≠ .awaitingKey x) ∨ pressed = false →
        OnlyChanges (fun p => p = .key k ∨ p.issuing) s t)

/-- `LoadProgram` is refused after the first cycle or out of `Running`, rejects an image over 3584 bytes, and
otherwise places it verbatim at 0x200; a refused or rejected image changes nothing (R109). -/
def Obligations.LoadProgramPlacesImageVerbatim : Prop :=
  ∀ (s : State) (image : List Byte), s.nextTransaction = .loadProgram image →
    ∃ t, step s = .next t ∧
      (s.started = true ∨ s.runState ≠ .running → t.reply = .refused ∧ t.toArch = s.toArch) ∧
      (s.started = false → s.runState = .running → 3584 < image.length →
        t.reply = .tooLarge ∧ t.toArch = s.toArch) ∧
      (s.started = false → s.runState = .running → image.length ≤ 3584 →
        t.reply = .ok ∧ (∀ (j : Nat) (h : j < image.length), t.readByte (0x200 + j) = image[j]) ∧
        OnlyChanges (fun p => (∃ j, j < image.length ∧ p = .byte (0x200 + j)) ∨ p.issuing) s t)

/-- `ClearDirty` clears the dirty flag, in every run state, and does nothing else (R111). -/
def Obligations.ClearDirtyClearsOnlyTheFlag : Prop :=
  ∀ s : State, s.nextTransaction = .clearDirty →
    ∃ t, step s = .next t ∧ t.dirty = false ∧ OnlyChanges (fun p => p = .dirty ∨ p.issuing) s t

/-- The power-on state and the state a `Reset` leaves, from whatever state, are the one rule R250 lists (R112,
R250). -/
def Obligations.ResetEstablishesInitialState : Prop :=
  AtReset State.reset ∧
  ∀ s : State, s.nextTransaction = .reset → ∃ t, step s = .next t ∧ AtReset t

/-- THE MODEL'S CHOICE (log entries 4, 5, 7): a step issues the first scheduled transaction and takes it off the
schedule, or a `Cycle` when none is scheduled; the core's parameters never change; a reset keeps the position
of the random source. -/
def Obligations.StepIssuesNextTransaction : Prop :=
  (∀ (s : State) (x : Transaction) (xs : List Transaction), s.pending = x :: xs →
    step s = transact x { s with pending := xs, report := none }) ∧
  (∀ s : State, s.pending = [] → step s = transact .cycle { s with report := none }) ∧
  (∀ s : State, s.nextTransaction = .reset → ∃ t, step s = .next t ∧ t.params = s.params ∧ t.draws = s.draws)

/-! ### Control transfer -/

/-- 1nnn sets `pc` to its address, Bnnn to V0 plus its address, exactly; nothing else changes (R120, R123). -/
def Obligations.JumpsSetOnlyPc : Prop :=
  ∀ (s : State) (nnn : Word), nnn.toNat < 0x1000 →
    (∃ t, exec (.jp nnn) s = .next t ∧ t.pc = nnn ∧ OnlyChanges (fun p => p = .pc) s t) ∧
    (∃ t, exec (.jpV0 nnn) s = .next t ∧ t.pc.toNat = (s.reg 0).toNat + nnn.toNat ∧
      OnlyChanges (fun p => p = .pc) s t)

/-- 2nnn pushes its own address and jumps; on a full stack it faults and writes nothing (R122, R223). -/
def Obligations.CallPushesItsAddress : Prop :=
  ∀ (s : State) (nnn : Word),
    (∀ j : Fin 16, j.val = s.sp.val → ∃ t, exec (.call nnn) s = .next t ∧ t.stack.get j = s.pc ∧
      t.sp.val = s.sp.val + 1 ∧ t.pc = nnn ∧
      OnlyChanges (fun p => p = .stackEntry j ∨ p = .sp ∨ p = .pc) s t) ∧
    (s.sp.val = 16 → ∃ t, exec (.call nnn) s = .next t ∧ t.runState = .faulted ⟨.stackOverflow, s.pc⟩ ∧
      OnlyChanges (fun p => p = .runState) s t)

/-- 00EE pops the top entry, which stays in the stack file, and continues two bytes after it; on an empty stack
it faults and writes nothing (R121, R224). -/
def Obligations.ReturnPopsAndAdvances : Prop :=
  ∀ s : State,
    (∀ j : Fin 16, j.val + 1 = s.sp.val → ∃ t, exec .ret s = .next t ∧ t.sp.val = j.val ∧
      t.pc.toNat = ((s.stack.get j).toNat + 2) % 2 ^ 16 ∧ OnlyChanges (fun p => p = .sp ∨ p = .pc) s t) ∧
    (s.sp.val = 0 → ∃ t, exec .ret s = .next t ∧ t.runState = .faulted ⟨.stackUnderflow, s.pc⟩ ∧
      OnlyChanges (fun p => p = .runState) s t)

/-- A return that finds the stack as a call left it continues after that call (R121, R122, conflict C4). -/
def Obligations.ReturnResumesAfterItsCall : Prop :=
  ∀ (s : State) (nnn : Word), s.sp.val < 16 → ∃ t, exec (.call nnn) s = .next t ∧
    ∀ u : State, u.sp = t.sp → u.stack = t.stack →
      ∃ w, exec .ret u = .next w ∧ w.pc = s.pc + 2 ∧ w.sp = s.sp

/-- 3xkk and 5xyn skip one instruction when their operands are equal, 4xkk and 9xyn when they differ; nothing
but `pc` changes (R124, R125, R126, R127). -/
def Obligations.SkipsFollowComparison : Prop :=
  ∀ (s : State) (x y : RegIdx) (kk : Byte) (n : Nat),
    (∃ t, exec (.seImm x kk) s = .next t ∧
      (s.reg x = kk → t.pc = s.pc + 4) ∧ (s.reg x ≠ kk → t.pc = s.pc + 2) ∧
      OnlyChanges (fun p => p = .pc) s t) ∧
    (∃ t, exec (.sneImm x kk) s = .next t ∧
      (s.reg x ≠ kk → t.pc = s.pc + 4) ∧ (s.reg x = kk → t.pc = s.pc + 2) ∧
      OnlyChanges (fun p => p = .pc) s t) ∧
    (∃ t, exec (.seReg x y n) s = .next t ∧
      (s.reg x = s.reg y → t.pc = s.pc + 4) ∧ (s.reg x ≠ s.reg y → t.pc = s.pc + 2) ∧
      OnlyChanges (fun p => p = .pc) s t) ∧
    (∃ t, exec (.sneReg x y n) s = .next t ∧
      (s.reg x ≠ s.reg y → t.pc = s.pc + 4) ∧ (s.reg x = s.reg y → t.pc = s.pc + 2) ∧
      OnlyChanges (fun p => p = .pc) s t)

/-! ### Load, add, logic, arithmetic, shifts, random -/

/-- 6xkk loads its immediate and 8xy0 copies a register, VF too when it is named; no flag is written (R142,
R144). -/
def Obligations.LoadsWriteOnlyTheirRegister : Prop :=
  ∀ (s : State) (x y : RegIdx) (kk : Byte),
    (∃ t, exec (.ldImm x kk) s = .next t ∧ t.reg x = kk ∧ t.pc = s.pc + 2 ∧
      OnlyChanges (fun p => p = .reg x ∨ p = .pc) s t) ∧
    (∃ t, exec (.ldReg x y) s = .next t ∧ t.reg x = s.reg y ∧ t.pc = s.pc + 2 ∧
      OnlyChanges (fun p => p = .reg x ∨ p = .pc) s t)

/-- 7xkk adds its immediate mod 256 and writes no flag (R143). -/
def Obligations.AddImmediateWrapsWithoutFlag : Prop :=
  ∀ (s : State) (x : RegIdx) (kk : Byte), ∃ t, exec (.addImm x kk) s = .next t ∧
    (t.reg x).toNat = ((s.reg x).toNat + kk.toNat) % 2 ^ 8 ∧ t.pc = s.pc + 2 ∧
    OnlyChanges (fun p => p = .reg x ∨ p = .pc) s t

/-- 8xy1, 8xy2, 8xy3 are bitwise OR, AND, XOR and leave VF alone unless it is the destination (R145, R146,
R147). -/
def Obligations.LogicIsBitwiseWithoutFlag : Prop :=
  ∀ (s : State) (x y : RegIdx),
    (∃ t, exec (.orReg x y) s = .next t ∧
      (∀ b, (t.reg x).getLsbD b = ((s.reg x).getLsbD b || (s.reg y).getLsbD b)) ∧ t.pc = s.pc + 2 ∧
      OnlyChanges (fun p => p = .reg x ∨ p = .pc) s t) ∧
    (∃ t, exec (.andReg x y) s = .next t ∧
      (∀ b, (t.reg x).getLsbD b = ((s.reg x).getLsbD b && (s.reg y).getLsbD b)) ∧ t.pc = s.pc + 2 ∧
      OnlyChanges (fun p => p = .reg x ∨ p = .pc) s t) ∧
    (∃ t, exec (.xorReg x y) s = .next t ∧
      (∀ b, (t.reg x).getLsbD b = ((s.reg x).getLsbD b ^^ (s.reg y).getLsbD b)) ∧ t.pc = s.pc + 2 ∧
      OnlyChanges (fun p => p = .reg x ∨ p = .pc) s t)

/-- 8xy4 adds mod 256 and leaves the carry of the exact sum in VF, also when `x` is F (R148, R140). -/
def Obligations.AddLeavesCarryInVF : Prop :=
  ∀ (s : State) (x y : RegIdx), ∃ t, exec (.addReg x y) s = .next t ∧
    (x ≠ vf → (t.reg x).toNat = ((s.reg x).toNat + (s.reg y).toNat) % 2 ^ 8) ∧
    (t.reg vf).toNat = (if 255 < (s.reg x).toNat + (s.reg y).toNat then 1 else 0) ∧ t.pc = s.pc + 2 ∧
    OnlyChanges (fun p => p = .reg x ∨ p = .reg vf ∨ p = .pc) s t

/-- 8xy5 is `Vx - Vy` and 8xy7 is `Vy - Vx`, mod 256; VF is 0 iff the subtrahend is the greater, also when `x`
is F (R149, R151, R140). -/
def Obligations.SubtractionsLeaveNoBorrowInVF : Prop :=
  ∀ (s : State) (x y : RegIdx),
    (∃ t, exec (.subReg x y) s = .next t ∧
      (x ≠ vf → ((t.reg x).toNat : Int) = ((s.reg x).toNat - (s.reg y).toNat : Int) % 2 ^ 8) ∧
      (t.reg vf).toNat = (if (s.reg x).toNat < (s.reg y).toNat then 0 else 1) ∧ t.pc = s.pc + 2 ∧
      OnlyChanges (fun p => p = .reg x ∨ p = .reg vf ∨ p = .pc) s t) ∧
    (∃ t, exec (.subnReg x y) s = .next t ∧
      (x ≠ vf → ((t.reg x).toNat : Int) = ((s.reg y).toNat - (s.reg x).toNat : Int) % 2 ^ 8) ∧
      (t.reg vf).toNat = (if (s.reg y).toNat < (s.reg x).toNat then 0 else 1) ∧ t.pc = s.pc + 2 ∧
      OnlyChanges (fun p => p = .reg x ∨ p = .reg vf ∨ p = .pc) s t)

/-- 8xy6 and 8xyE shift by one, and VF is the bit shifted out, also when `x` is F; `y` plays no part (R150,
R152, R140). -/
def Obligations.ShiftsLeaveLostBitInVF : Prop :=
  ∀ (s : State) (x y : RegIdx),
    (∃ t, exec (.shr x y) s = .next t ∧
      (x ≠ vf → (t.reg x).toNat = (s.reg x).toNat / 2) ∧ (t.reg vf).toNat = (s.reg x).toNat % 2 ∧
      t.pc = s.pc + 2 ∧ OnlyChanges (fun p => p = .reg x ∨ p = .reg vf ∨ p = .pc) s t) ∧
    (∃ t, exec (.shl x y) s = .next t ∧
      (x ≠ vf → (t.reg x).toNat = (s.reg x).toNat * 2 % 2 ^ 8) ∧
      (t.reg vf).toNat = (s.reg x).toNat / 128 ∧
      t.pc = s.pc + 2 ∧ OnlyChanges (fun p => p = .reg x ∨ p = .reg vf ∨ p = .pc) s t)

/-- Cxkk takes one draw and leaves it masked in `Vx`, whatever the draw is (R160, R161; the draw is the free
value of log entry 1). -/
def Obligations.RandomIsTheMaskedDraw : Prop :=
  ∀ (s : State) (x : RegIdx) (kk : Byte), ∃ t, exec (.rnd x kk) s = .next t ∧
    t.reg x = kk &&& Config.randomByte s.draws ∧ t.draws = s.draws + 1 ∧ t.pc = s.pc + 2 ∧
    OnlyChanges (fun p => p = .reg x ∨ p = .draws ∨ p = .pc) s t

/-- One draw is taken per execution of Cxkk and none by any other step (R115). -/
def Obligations.OneDrawPerRandom : Prop :=
  ∀ s t : State, step s = .next t →
    ((∃ x kk, s.aboutToRun (.rnd x kk)) → t.draws = s.draws + 1) ∧
    ((∀ x kk, ¬ s.aboutToRun (.rnd x kk)) → t.draws = s.draws)

/-! ### Display -/

/-- Dxyn with its sprite in memory flips exactly the cells its 1 bits land on, clipped at the screen's edges
and not wrapped; VF is 1 iff one of them was set; `dirty` is set. A sprite that runs out of memory faults, clipped
or not, and draws nothing (R170, R171, R173). -/
def Obligations.DrawFlipsCellsAndReportsCollision : Prop :=
  ∀ (s : State) (x y : RegIdx) (n : Nat),
    (n = 0 ∨ s.i.toNat + n ≤ 0x1000 → ∃ t, exec (.drw x y n) s = .next t ∧
      (∀ Y X, spriteDraws s x y n Y X → t.cell Y X = !(s.cell Y X)) ∧
      (∀ Y X, ¬ spriteDraws s x y n Y X → t.cell Y X = s.cell Y X) ∧
      ((∃ Y X, spriteDraws s x y n Y X ∧ s.cell Y X = true) → t.reg vf = 1) ∧
      ((¬ ∃ Y X, spriteDraws s x y n Y X ∧ s.cell Y X = true) → t.reg vf = 0) ∧
      t.dirty = true ∧ t.pc = s.pc + 2 ∧
      OnlyChanges (fun p => (∃ Y X, p = .cell Y X) ∨ p = .reg vf ∨ p = .dirty ∨ p = .pc) s t) ∧
    (0 < n → 0x1000 < s.i.toNat + n → ∃ t, exec (.drw x y n) s = .next t ∧
      t.runState = .faulted ⟨.memoryOutOfBounds (max s.i.toNat 0x1000), s.pc⟩ ∧
      OnlyChanges (fun p => p = .runState) s t)

/-- Drawing the same sprite twice at the same place restores every cell, and the second draw collides iff the
first one set a cell (conflict C8, example S5). Coordinates in VF are left out: the first draw
overwrites them. -/
def Obligations.DrawingTwiceRestoresTheScreen : Prop :=
  ∀ (s : State) (x y : RegIdx) (n : Nat), x ≠ vf → y ≠ vf → n = 0 ∨ s.i.toNat + n ≤ 0x1000 →
    ∃ t u, exec (.drw x y n) s = .next t ∧ exec (.drw x y n) t = .next u ∧ u.gfx = s.gfx ∧
      (u.reg vf = 1 ↔ ∃ Y X, s.cell Y X = false ∧ t.cell Y X = true)

/-- 00E0 clears every cell, sets `dirty` and leaves VF alone (R172). -/
def Obligations.ClearScreenClearsEveryCell : Prop :=
  ∀ s : State, ∃ t, exec .cls s = .next t ∧ (∀ y x, t.cell y x = false) ∧ t.dirty = true ∧ t.pc = s.pc + 2 ∧
    OnlyChanges (fun p => (∃ y x, p = .cell y x) ∨ p = .dirty ∨ p = .pc) s t

/-! ### Timers, index, memory -/

/-- Fx07 reads `DT` as it is before the tick; Fx15 and Fx18 set a timer, which the same cycle's tick then counts
down, so that `audible` is on after Fx18 iff `Vx >= 2` (R180, R181, R182, R29). -/
def Obligations.TimerMovesAndTheirTick : Prop :=
  ∀ (s : State) (x : RegIdx),
    (∃ t, exec (.ldVxDt x) s = .next t ∧ t.reg x = s.dt ∧ t.pc = s.pc + 2 ∧
      OnlyChanges (fun p => p = .reg x ∨ p = .pc) s t ∧
      (s.runState = .running → (endCycle t).reg x = s.dt ∧ (endCycle t).dt.toNat = s.dt.toNat - 1)) ∧
    (∃ t, exec (.ldDtVx x) s = .next t ∧ t.dt = s.reg x ∧ t.pc = s.pc + 2 ∧
      OnlyChanges (fun p => p = .dt ∨ p = .pc) s t ∧
      (s.runState = .running → (endCycle t).dt.toNat = (s.reg x).toNat - 1)) ∧
    (∃ t, exec (.ldStVx x) s = .next t ∧ t.st = s.reg x ∧ t.pc = s.pc + 2 ∧
      OnlyChanges (fun p => p = .st ∨ p = .pc) s t ∧
      (s.runState = .running → (endCycle t).st.toNat = (s.reg x).toNat - 1 ∧
        ((endCycle t).audible = true ↔ 2 ≤ (s.reg x).toNat)))

/-- Annn loads `I`; Fx1E adds to it mod 2^16 with no flag and no wrap at 12 bits (R183, R184). -/
def Obligations.IndexLoadAndAdd : Prop :=
  ∀ (s : State) (x : RegIdx) (nnn : Word),
    (∃ t, exec (.ldI nnn) s = .next t ∧ t.i = nnn ∧ t.pc = s.pc + 2 ∧
      OnlyChanges (fun p => p = .i ∨ p = .pc) s t) ∧
    (∃ t, exec (.addIVx x) s = .next t ∧ t.i.toNat = (s.i.toNat + (s.reg x).toNat) % 2 ^ 16 ∧
      t.pc = s.pc + 2 ∧ OnlyChanges (fun p => p = .i ∨ p = .pc) s t)

/-- Fx29 points `I` at the digit's glyph; a value above 0xF faults and writes nothing (R185, R227). -/
def Obligations.FontAddressOrFault : Prop :=
  ∀ (s : State) (x : RegIdx),
    ((s.reg x).toNat ≤ 0xF → ∃ t, exec (.ldFVx x) s = .next t ∧ t.i.toNat = (s.reg x).toNat * 5 ∧
      t.pc = s.pc + 2 ∧ OnlyChanges (fun p => p = .i ∨ p = .pc) s t) ∧
    (0xF < (s.reg x).toNat → ∃ t, exec (.ldFVx x) s = .next t ∧
      t.runState = .faulted ⟨.fontDigitOutOfRange (s.reg x), s.pc⟩ ∧
      OnlyChanges (fun p => p = .runState) s t)

/-- Fx33 stores the hundreds, tens and units digits of `Vx` at `I`, `I+1`, `I+2`: decimal digits whose number is
`Vx`; `I` is unchanged; out of memory it faults and stores nothing (R186). -/
def Obligations.BcdStoresDecimalDigits : Prop :=
  ∀ (s : State) (x : RegIdx),
    (s.i.toNat + 3 ≤ 0x1000 → ∃ t, exec (.ldBVx x) s = .next t ∧
      (t.readByte (s.addrAt 0)).toNat = (s.reg x).toNat / 100 ∧
      (t.readByte (s.addrAt 1)).toNat = (s.reg x).toNat / 10 % 10 ∧
      (t.readByte (s.addrAt 2)).toNat = (s.reg x).toNat % 10 ∧
      100 * (t.readByte (s.addrAt 0)).toNat + 10 * (t.readByte (s.addrAt 1)).toNat +
        (t.readByte (s.addrAt 2)).toNat = (s.reg x).toNat ∧
      t.pc = s.pc + 2 ∧ OnlyChanges (fun p => storedByte s 3 p ∨ p = .pc) s t) ∧
    (0x1000 < s.i.toNat + 3 → ∃ t, exec (.ldBVx x) s = .next t ∧
      t.runState = .faulted ⟨.memoryOutOfBounds (max s.i.toNat 0x1000), s.pc⟩ ∧
      OnlyChanges (fun p => p = .runState) s t)

/-- Fx55 stores V0 to Vx, `x` included, from `I` on, and leaves `I` alone; out of memory it faults and stores
nothing (R187). -/
def Obligations.StoreRegistersFromIndex : Prop :=
  ∀ (s : State) (x : RegIdx),
    (s.i.toNat + x.val + 1 ≤ 0x1000 → ∃ t, exec (.storeRegs x) s = .next t ∧
      (∀ r : RegIdx, r ≤ x → t.readByte (s.addrAt r.val) = s.reg r) ∧
      t.pc = s.pc + 2 ∧ OnlyChanges (fun p => storedByte s (x.val + 1) p ∨ p = .pc) s t) ∧
    (0x1000 < s.i.toNat + x.val + 1 → ∃ t, exec (.storeRegs x) s = .next t ∧
      t.runState = .faulted ⟨.memoryOutOfBounds (max s.i.toNat 0x1000), s.pc⟩ ∧
      OnlyChanges (fun p => p = .runState) s t)

/-- Fx65 loads V0 to Vx, `x` included, from `I` on, VF too when `x` is F, and leaves `I` alone; out of memory it
faults and loads nothing (R188). -/
def Obligations.LoadRegistersFromIndex : Prop :=
  ∀ (s : State) (x : RegIdx),
    (s.i.toNat + x.val + 1 ≤ 0x1000 → ∃ t, exec (.loadRegs x) s = .next t ∧
      (∀ r : RegIdx, r ≤ x → t.reg r = s.readByte (s.addrAt r.val)) ∧
      t.pc = s.pc + 2 ∧ OnlyChanges (fun p => (∃ r, r ≤ x ∧ p = .reg r) ∨ p = .pc) s t) ∧
    (0x1000 < s.i.toNat + x.val + 1 → ∃ t, exec (.loadRegs x) s = .next t ∧
      t.runState = .faulted ⟨.memoryOutOfBounds (max s.i.toNat 0x1000), s.pc⟩ ∧
      OnlyChanges (fun p => p = .runState) s t)

/-- Registers stored by Fx55 come back by Fx65, whatever the registers have become in between (R187, R188). -/
def Obligations.StoredRegistersLoadBack : Prop :=
  ∀ (s : State) (x : RegIdx), s.i.toNat + x.val + 1 ≤ 0x1000 →
    ∃ t, exec (.storeRegs x) s = .next t ∧ ∀ v : Vector Byte 16,
      ∃ u, exec (.loadRegs x) { t with v := v } = .next u ∧ (∀ r : RegIdx, r ≤ x → u.reg r = s.reg r) ∧
        ∀ r : RegIdx, x < r → u.reg r = v.get r

/-- Dxyn, Fx33, Fx55, Fx65 check every address before they write: if one is above 0xFFF the instruction faults
with the lowest such address and changes nothing else (R56, R225). -/
def Obligations.OutOfBoundsAccessFaultsAtLowestAddress : Prop :=
  ∀ (s : State) (i : Instr), 0 < accessCount i → 0x1000 < s.i.toNat + accessCount i →
    ∃ t a, exec i s = .next t ∧ t.runState = .faulted ⟨.memoryOutOfBounds a, s.pc⟩ ∧
      (∃ k, k < accessCount i ∧ a = s.addrAt k) ∧ 0xFFF < a ∧
      (∀ k, k < accessCount i → 0xFFF < s.addrAt k → a ≤ s.addrAt k) ∧
      OnlyChanges (fun p => p = .runState) s t

/-- A store over the next instruction is what the next cycle fetches: after Fx55 the word of V0 and V1, after
Fx33 the word of its first two digits (R64). -/
def Obligations.StoreIsFetchedByNextCycle : Prop :=
  ∀ (s : State) (x : RegIdx), s.pc.toNat + 2 = s.i.toNat → s.i.toNat + 16 ≤ 0x1000 →
    (1 ≤ x.val → ∃ t op, exec (.storeRegs x) s = .next t ∧ t.fetch = some op ∧
      op.toNat = (s.reg 0).toNat * 0x100 + (s.reg 1).toNat) ∧
    (∃ t op, exec (.ldBVx x) s = .next t ∧ t.fetch = some op ∧
      op.toNat = (s.reg x).toNat / 100 * 0x100 + (s.reg x).toNat / 10 % 10)

/-! ### Keys -/

/-- Ex9E skips iff the key `Vx` names is pressed, ExA1 iff it is not; a value of 16 or more faults and writes
nothing (R200, R201, R226). -/
def Obligations.KeySkipsFollowTheBitmap : Prop :=
  ∀ (s : State) (x : RegIdx),
    (∀ k : KeyIdx, (s.reg x).toNat = k.val →
      (∃ t, exec (.skp x) s = .next t ∧ t.pc = s.pc + (if s.key.get k = true then 4 else 2) ∧
        OnlyChanges (fun p => p = .pc) s t) ∧
      (∃ t, exec (.sknp x) s = .next t ∧ t.pc = s.pc + (if s.key.get k = true then 2 else 4) ∧
        OnlyChanges (fun p => p = .pc) s t)) ∧
    (16 ≤ (s.reg x).toNat →
      (∃ t, exec (.skp x) s = .next t ∧ t.runState = .faulted ⟨.keyIndexOutOfRange (s.reg x), s.pc⟩ ∧
        OnlyChanges (fun p => p = .runState) s t) ∧
      (∃ t, exec (.sknp x) s = .next t ∧ t.runState = .faulted ⟨.keyIndexOutOfRange (s.reg x), s.pc⟩ ∧
        OnlyChanges (fun p => p = .runState) s t))

/-- Fx0A suspends the core at its own address, changing only the run state; its cycle returns `Suspended` without a
tick. It completes in a later press: the key's index is in `Vx`, the core runs on after the Fx0A and the timers
have ticked once; a release does not complete it (R202). -/
def Obligations.WaitForKeySuspendsThenStoresKey : Prop :=
  ∀ (s : State) (x : RegIdx), ∃ t, exec (.ldVxK x) s = .next t ∧ t.runState = .awaitingKey x ∧
    OnlyChanges (fun p => p = .runState) s t ∧
    endCycle t = { t with reply := .suspended } ∧
    (∀ k, (keyEvent k false t).runState = .awaitingKey x) ∧
    ∀ k : KeyIdx, ((keyEvent k true t).reg x).toNat = k.val ∧ (keyEvent k true t).key.get k = true ∧
      (keyEvent k true t).pc = s.pc + 2 ∧ (keyEvent k true t).runState = .running ∧
      (keyEvent k true t).dt.toNat = s.dt.toNat - 1 ∧ (keyEvent k true t).st.toNat = s.st.toNat - 1

/-! ### The whole machine -/

/-- The invariant holds at reset (R250). -/
def Obligations.ResetMeetsInvariant : Prop := Inv State.reset

/-- Every step, whichever transaction it issues, keeps the invariant: canonical memory, `pc` and return
addresses far below their wrap, a waiting core at its Fx0A, an exact fault record, an untouched core before its
first cycle (R24, R35, R202, R229, R230). -/
def Obligations.StepKeepsInvariant : Prop := ∀ s t : State, Inv s → step s = .next t → Inv t

/-- Every instruction, whatever its operands and the state, changes at most the pieces of state that the spec
says it writes (R22, R25, R26, R32, R37, R58). -/
def Obligations.InstructionChangesOnlyItsFootprint : Prop :=
  ∀ (i : Instr) (s t : State), exec i s = .next t → OnlyChanges (footprint s i) s t

/-- Memory changes only by Fx33, Fx55, a program load or a reset (R50, R58). -/
def Obligations.MemoryWrittenOnlyByStoresAndLoads : Prop :=
  ∀ s t : State, step s = .next t → t.mem ≠ s.mem →
    (∃ x, s.aboutToRun (.ldBVx x) ∨ s.aboutToRun (.storeRegs x)) ∨
    (∃ image, s.nextTransaction = .loadProgram image) ∨ s.nextTransaction = .reset

/-- `sp` and the stack change only by 2nnn, 00EE or a reset: 2nnn counts up by one, 00EE down by one (R26,
R27). -/
def Obligations.StackMovesOnlyByCallAndReturn : Prop :=
  ∀ s t : State, step s = .next t → t.sp ≠ s.sp ∨ t.stack ≠ s.stack →
    ((∃ nnn, s.aboutToRun (.call nnn)) ∧ t.sp.val = s.sp.val + 1) ∨
    (s.aboutToRun .ret ∧ t.sp.val + 1 = s.sp.val ∧ t.stack = s.stack) ∨ s.nextTransaction = .reset

/-- The framebuffer changes only by Dxyn, 00E0 or a reset, and `dirty` is then set; `dirty` is cleared only by
`ClearDirty` or a reset (R32, R34). -/
def Obligations.ScreenChangesOnlyByDrawing : Prop :=
  ∀ s t : State, step s = .next t → s.nextTransaction ≠ .reset →
    (t.gfx ≠ s.gfx → t.dirty = true ∧ (s.aboutToRun .cls ∨ ∃ x y n, s.aboutToRun (.drw x y n))) ∧
    (s.dirty = true → t.dirty = false → s.nextTransaction = .clearDirty) ∧
    (s.dirty = false → t.dirty = true → s.aboutToRun .cls ∨ ∃ x y n, s.aboutToRun (.drw x y n))

/-- The key bitmap is written only by key events and a reset: no cycle changes it (R33). -/
def Obligations.KeysChangeOnlyByHostEvents : Prop :=
  ∀ s t : State, step s = .next t → t.key ≠ s.key →
    (∃ k pressed, s.nextTransaction = .keyEvent k pressed) ∨ s.nextTransaction = .reset

/-- The sound timer is readable by no instruction: two machines that differ only in `ST` take steps that differ
only in `ST` (R28, R37). -/
def Obligations.SoundTimerIsNeverRead : Prop :=
  ∀ (s : State) (b : Byte), ∃ t c, step s = .next t ∧ step { s with st := b } = .next { t with st := c }

/-- Up to 16 addresses can be pushed in all, and pops return them in exact reverse order; one more does not fit
(R27, R129, example S1). -/
def Obligations.StackIsLastInFirstOut : Prop :=
  ∀ (s : State) (as : List Word),
    (s.sp.val + as.length ≤ 16 → ∃ t u, s.pushAll as = some t ∧ t.popMany as.length = some (as.reverse, u) ∧
      t.sp.val = s.sp.val + as.length ∧ u.sp = s.sp) ∧
    (16 < s.sp.val + as.length → s.pushAll as = none)

/-- The canonical form makes a memory what it reads as: two canonical memories that read alike at every address
are the same data (log entry 8). -/
def Obligations.CanonicalMemoriesReadingAlikeAreEqual : Prop :=
  ∀ (p : Params) (m m' : Memory), m.wf p → m'.wf p → (∀ a, m.read p a = m'.read p a) → m = m'

/-- With no program loaded, a core under `Skip` reports and steps over every zero word from 0x200 to 0xFFE and
then faults `FetchOutOfBounds` at 0x1000; under `Fault` its first cycle faults `UnknownOpcode` at 0x200
(R254). Runs from the one reset state: its empty schedule issues `Cycle` (log entries 4, 11) and its parameters are
the defaults (log entries 2, 3). -/
def Obligations.EmptyMemoryRunsToItsEnd : Prop :=
  (∀ k, k < 1792 → ∃ s t, Host.Core.run Sys2Proof.core k State.reset = .next s ∧ step s = .next t ∧
    s.pc.toNat = 0x200 + 2 * k ∧ t.report = some ⟨s.pc, 0x0000⟩ ∧ t.reply = .completed) ∧
  (∃ t, Host.Core.run Sys2Proof.core 1793 State.reset = .next t ∧
    t.runState = .faulted ⟨.fetchOutOfBounds, 0x1000⟩) ∧
  (∃ t, step { State.reset with params := ⟨Config.defaultFont, .fault⟩ } = .next t ∧
    t.runState = .faulted ⟨.unknownOpcode 0x0000, 0x200⟩)
end

