-- ==== Sys2Proof/Laws/State.lean ====
section
/-! SUPPORT. One lemma per field per update, so that no proof unfolds a record update, and what the accessors of
registers, bytes and cells read after each update. -/

namespace Sys2Proof.Machine

/-- What a register file or bitmap holds after one entry is set. -/
@[simp] theorem vector_get_set {α : Type} {n : Nat} (v : Vector α n) (k j : Fin n) (a : α) :
    (v.set k.val a k.isLt).get j = if j = k then a else v.get j := by
  by_cases h : j = k
  · subst h; simp [Vector.get_eq_getElem]
  · have : k.val ≠ j.val := fun e => h (Fin.ext e.symm)
    simp [Vector.get_eq_getElem, h, this]

section

variable (s : State)

/-! ### `setReg` -/

@[simp] theorem setReg_v (r : RegIdx) (b : Byte) : (s.setReg r b).v = s.v.set r.val b r.isLt := rfl
@[simp] theorem setReg_pc (r : RegIdx) (b : Byte) : (s.setReg r b).pc = s.pc := rfl
@[simp] theorem setReg_i (r : RegIdx) (b : Byte) : (s.setReg r b).i = s.i := rfl
@[simp] theorem setReg_sp (r : RegIdx) (b : Byte) : (s.setReg r b).sp = s.sp := rfl
@[simp] theorem setReg_stack (r : RegIdx) (b : Byte) : (s.setReg r b).stack = s.stack := rfl
@[simp] theorem setReg_dt (r : RegIdx) (b : Byte) : (s.setReg r b).dt = s.dt := rfl
@[simp] theorem setReg_st (r : RegIdx) (b : Byte) : (s.setReg r b).st = s.st := rfl
@[simp] theorem setReg_mem (r : RegIdx) (b : Byte) : (s.setReg r b).mem = s.mem := rfl
@[simp] theorem setReg_gfx (r : RegIdx) (b : Byte) : (s.setReg r b).gfx = s.gfx := rfl
@[simp] theorem setReg_key (r : RegIdx) (b : Byte) : (s.setReg r b).key = s.key := rfl
@[simp] theorem setReg_dirty (r : RegIdx) (b : Byte) : (s.setReg r b).dirty = s.dirty := rfl
@[simp] theorem setReg_runState (r : RegIdx) (b : Byte) : (s.setReg r b).runState = s.runState := rfl
@[simp] theorem setReg_started (r : RegIdx) (b : Byte) : (s.setReg r b).started = s.started := rfl
@[simp] theorem setReg_params (r : RegIdx) (b : Byte) : (s.setReg r b).params = s.params := rfl
@[simp] theorem setReg_draws (r : RegIdx) (b : Byte) : (s.setReg r b).draws = s.draws := rfl
@[simp] theorem setReg_pending (r : RegIdx) (b : Byte) : (s.setReg r b).pending = s.pending := rfl
@[simp] theorem setReg_reply (r : RegIdx) (b : Byte) : (s.setReg r b).reply = s.reply := rfl
@[simp] theorem setReg_report (r : RegIdx) (b : Byte) : (s.setReg r b).report = s.report := rfl
@[simp] theorem setReg_readByte (r : RegIdx) (b : Byte) (q : Nat) : (s.setReg r b).readByte q = s.readByte q := rfl
@[simp] theorem setReg_cell (r : RegIdx) (b : Byte) (y : Fin 32) (x : Fin 64) : (s.setReg r b).cell y x = s.cell y x := rfl
@[simp] theorem setReg_fetch (r : RegIdx) (b : Byte) : (s.setReg r b).fetch = s.fetch := rfl

/-! ### `jump` -/

@[simp] theorem jump_v (a : Word) : (s.jump a).v = s.v := rfl
@[simp] theorem jump_pc (a : Word) : (s.jump a).pc = a := rfl
@[simp] theorem jump_i (a : Word) : (s.jump a).i = s.i := rfl
@[simp] theorem jump_sp (a : Word) : (s.jump a).sp = s.sp := rfl
@[simp] theorem jump_stack (a : Word) : (s.jump a).stack = s.stack := rfl
@[simp] theorem jump_dt (a : Word) : (s.jump a).dt = s.dt := rfl
@[simp] theorem jump_st (a : Word) : (s.jump a).st = s.st := rfl
@[simp] theorem jump_mem (a : Word) : (s.jump a).mem = s.mem := rfl
@[simp] theorem jump_gfx (a : Word) : (s.jump a).gfx = s.gfx := rfl
@[simp] theorem jump_key (a : Word) : (s.jump a).key = s.key := rfl
@[simp] theorem jump_dirty (a : Word) : (s.jump a).dirty = s.dirty := rfl
@[simp] theorem jump_runState (a : Word) : (s.jump a).runState = s.runState := rfl
@[simp] theorem jump_started (a : Word) : (s.jump a).started = s.started := rfl
@[simp] theorem jump_params (a : Word) : (s.jump a).params = s.params := rfl
@[simp] theorem jump_draws (a : Word) : (s.jump a).draws = s.draws := rfl
@[simp] theorem jump_pending (a : Word) : (s.jump a).pending = s.pending := rfl
@[simp] theorem jump_reply (a : Word) : (s.jump a).reply = s.reply := rfl
@[simp] theorem jump_report (a : Word) : (s.jump a).report = s.report := rfl
@[simp] theorem jump_reg (a : Word) (q : RegIdx) : (s.jump a).reg q = s.reg q := rfl
@[simp] theorem jump_readByte (a : Word) (q : Nat) : (s.jump a).readByte q = s.readByte q := rfl
@[simp] theorem jump_cell (a : Word) (y : Fin 32) (x : Fin 64) : (s.jump a).cell y x = s.cell y x := rfl

/-! ### `setI` -/

@[simp] theorem setI_v (a : Word) : (s.setI a).v = s.v := rfl
@[simp] theorem setI_pc (a : Word) : (s.setI a).pc = s.pc := rfl
@[simp] theorem setI_i (a : Word) : (s.setI a).i = a := rfl
@[simp] theorem setI_sp (a : Word) : (s.setI a).sp = s.sp := rfl
@[simp] theorem setI_stack (a : Word) : (s.setI a).stack = s.stack := rfl
@[simp] theorem setI_dt (a : Word) : (s.setI a).dt = s.dt := rfl
@[simp] theorem setI_st (a : Word) : (s.setI a).st = s.st := rfl
@[simp] theorem setI_mem (a : Word) : (s.setI a).mem = s.mem := rfl
@[simp] theorem setI_gfx (a : Word) : (s.setI a).gfx = s.gfx := rfl
@[simp] theorem setI_key (a : Word) : (s.setI a).key = s.key := rfl
@[simp] theorem setI_dirty (a : Word) : (s.setI a).dirty = s.dirty := rfl
@[simp] theorem setI_runState (a : Word) : (s.setI a).runState = s.runState := rfl
@[simp] theorem setI_started (a : Word) : (s.setI a).started = s.started := rfl
@[simp] theorem setI_params (a : Word) : (s.setI a).params = s.params := rfl
@[simp] theorem setI_draws (a : Word) : (s.setI a).draws = s.draws := rfl
@[simp] theorem setI_pending (a : Word) : (s.setI a).pending = s.pending := rfl
@[simp] theorem setI_reply (a : Word) : (s.setI a).reply = s.reply := rfl
@[simp] theorem setI_report (a : Word) : (s.setI a).report = s.report := rfl
@[simp] theorem setI_reg (a : Word) (q : RegIdx) : (s.setI a).reg q = s.reg q := rfl
@[simp] theorem setI_readByte (a : Word) (q : Nat) : (s.setI a).readByte q = s.readByte q := rfl
@[simp] theorem setI_cell (a : Word) (y : Fin 32) (x : Fin 64) : (s.setI a).cell y x = s.cell y x := rfl
@[simp] theorem setI_fetch (a : Word) : (s.setI a).fetch = s.fetch := rfl

/-! ### `setDt` -/

@[simp] theorem setDt_v (b : Byte) : (s.setDt b).v = s.v := rfl
@[simp] theorem setDt_pc (b : Byte) : (s.setDt b).pc = s.pc := rfl
@[simp] theorem setDt_i (b : Byte) : (s.setDt b).i = s.i := rfl
@[simp] theorem setDt_sp (b : Byte) : (s.setDt b).sp = s.sp := rfl
@[simp] theorem setDt_stack (b : Byte) : (s.setDt b).stack = s.stack := rfl
@[simp] theorem setDt_dt (b : Byte) : (s.setDt b).dt = b := rfl
@[simp] theorem setDt_st (b : Byte) : (s.setDt b).st = s.st := rfl
@[simp] theorem setDt_mem (b : Byte) : (s.setDt b).mem = s.mem := rfl
@[simp] theorem setDt_gfx (b : Byte) : (s.setDt b).gfx = s.gfx := rfl
@[simp] theorem setDt_key (b : Byte) : (s.setDt b).key = s.key := rfl
@[simp] theorem setDt_dirty (b : Byte) : (s.setDt b).dirty = s.dirty := rfl
@[simp] theorem setDt_runState (b : Byte) : (s.setDt b).runState = s.runState := rfl
@[simp] theorem setDt_started (b : Byte) : (s.setDt b).started = s.started := rfl
@[simp] theorem setDt_params (b : Byte) : (s.setDt b).params = s.params := rfl
@[simp] theorem setDt_draws (b : Byte) : (s.setDt b).draws = s.draws := rfl
@[simp] theorem setDt_pending (b : Byte) : (s.setDt b).pending = s.pending := rfl
@[simp] theorem setDt_reply (b : Byte) : (s.setDt b).reply = s.reply := rfl
@[simp] theorem setDt_report (b : Byte) : (s.setDt b).report = s.report := rfl
@[simp] theorem setDt_reg (b : Byte) (q : RegIdx) : (s.setDt b).reg q = s.reg q := rfl
@[simp] theorem setDt_readByte (b : Byte) (q : Nat) : (s.setDt b).readByte q = s.readByte q := rfl
@[simp] theorem setDt_cell (b : Byte) (y : Fin 32) (x : Fin 64) : (s.setDt b).cell y x = s.cell y x := rfl
@[simp] theorem setDt_fetch (b : Byte) : (s.setDt b).fetch = s.fetch := rfl

/-! ### `setSt` -/

@[simp] theorem setSt_v (b : Byte) : (s.setSt b).v = s.v := rfl
@[simp] theorem setSt_pc (b : Byte) : (s.setSt b).pc = s.pc := rfl
@[simp] theorem setSt_i (b : Byte) : (s.setSt b).i = s.i := rfl
@[simp] theorem setSt_sp (b : Byte) : (s.setSt b).sp = s.sp := rfl
@[simp] theorem setSt_stack (b : Byte) : (s.setSt b).stack = s.stack := rfl
@[simp] theorem setSt_dt (b : Byte) : (s.setSt b).dt = s.dt := rfl
@[simp] theorem setSt_st (b : Byte) : (s.setSt b).st = b := rfl
@[simp] theorem setSt_mem (b : Byte) : (s.setSt b).mem = s.mem := rfl
@[simp] theorem setSt_gfx (b : Byte) : (s.setSt b).gfx = s.gfx := rfl
@[simp] theorem setSt_key (b : Byte) : (s.setSt b).key = s.key := rfl
@[simp] theorem setSt_dirty (b : Byte) : (s.setSt b).dirty = s.dirty := rfl
@[simp] theorem setSt_runState (b : Byte) : (s.setSt b).runState = s.runState := rfl
@[simp] theorem setSt_started (b : Byte) : (s.setSt b).started = s.started := rfl
@[simp] theorem setSt_params (b : Byte) : (s.setSt b).params = s.params := rfl
@[simp] theorem setSt_draws (b : Byte) : (s.setSt b).draws = s.draws := rfl
@[simp] theorem setSt_pending (b : Byte) : (s.setSt b).pending = s.pending := rfl
@[simp] theorem setSt_reply (b : Byte) : (s.setSt b).reply = s.reply := rfl
@[simp] theorem setSt_report (b : Byte) : (s.setSt b).report = s.report := rfl
@[simp] theorem setSt_reg (b : Byte) (q : RegIdx) : (s.setSt b).reg q = s.reg q := rfl
@[simp] theorem setSt_readByte (b : Byte) (q : Nat) : (s.setSt b).readByte q = s.readByte q := rfl
@[simp] theorem setSt_cell (b : Byte) (y : Fin 32) (x : Fin 64) : (s.setSt b).cell y x = s.cell y x := rfl
@[simp] theorem setSt_fetch (b : Byte) : (s.setSt b).fetch = s.fetch := rfl

/-! ### `tick` -/

@[simp] theorem tick_v : (s.tick).v = s.v := rfl
@[simp] theorem tick_pc : (s.tick).pc = s.pc := rfl
@[simp] theorem tick_i : (s.tick).i = s.i := rfl
@[simp] theorem tick_sp : (s.tick).sp = s.sp := rfl
@[simp] theorem tick_stack : (s.tick).stack = s.stack := rfl
@[simp] theorem tick_dt : (s.tick).dt = countDown s.dt := rfl
@[simp] theorem tick_st : (s.tick).st = countDown s.st := rfl
@[simp] theorem tick_mem : (s.tick).mem = s.mem := rfl
@[simp] theorem tick_gfx : (s.tick).gfx = s.gfx := rfl
@[simp] theorem tick_key : (s.tick).key = s.key := rfl
@[simp] theorem tick_dirty : (s.tick).dirty = s.dirty := rfl
@[simp] theorem tick_runState : (s.tick).runState = s.runState := rfl
@[simp] theorem tick_started : (s.tick).started = s.started := rfl
@[simp] theorem tick_params : (s.tick).params = s.params := rfl
@[simp] theorem tick_draws : (s.tick).draws = s.draws := rfl
@[simp] theorem tick_pending : (s.tick).pending = s.pending := rfl
@[simp] theorem tick_reply : (s.tick).reply = s.reply := rfl
@[simp] theorem tick_report : (s.tick).report = s.report := rfl
@[simp] theorem tick_reg (q : RegIdx) : (s.tick).reg q = s.reg q := rfl
@[simp] theorem tick_readByte (q : Nat) : (s.tick).readByte q = s.readByte q := rfl
@[simp] theorem tick_cell (y : Fin 32) (x : Fin 64) : (s.tick).cell y x = s.cell y x := rfl
@[simp] theorem tick_fetch : (s.tick).fetch = s.fetch := rfl

/-! ### `writeByte` -/

@[simp] theorem writeByte_v (a : Nat) (b : Byte) : (s.writeByte a b).v = s.v := rfl
@[simp] theorem writeByte_pc (a : Nat) (b : Byte) : (s.writeByte a b).pc = s.pc := rfl
@[simp] theorem writeByte_i (a : Nat) (b : Byte) : (s.writeByte a b).i = s.i := rfl
@[simp] theorem writeByte_sp (a : Nat) (b : Byte) : (s.writeByte a b).sp = s.sp := rfl
@[simp] theorem writeByte_stack (a : Nat) (b : Byte) : (s.writeByte a b).stack = s.stack := rfl
@[simp] theorem writeByte_dt (a : Nat) (b : Byte) : (s.writeByte a b).dt = s.dt := rfl
@[simp] theorem writeByte_st (a : Nat) (b : Byte) : (s.writeByte a b).st = s.st := rfl
@[simp] theorem writeByte_mem (a : Nat) (b : Byte) : (s.writeByte a b).mem = s.mem.write s.params a b := rfl
@[simp] theorem writeByte_gfx (a : Nat) (b : Byte) : (s.writeByte a b).gfx = s.gfx := rfl
@[simp] theorem writeByte_key (a : Nat) (b : Byte) : (s.writeByte a b).key = s.key := rfl
@[simp] theorem writeByte_dirty (a : Nat) (b : Byte) : (s.writeByte a b).dirty = s.dirty := rfl
@[simp] theorem writeByte_runState (a : Nat) (b : Byte) : (s.writeByte a b).runState = s.runState := rfl
@[simp] theorem writeByte_started (a : Nat) (b : Byte) : (s.writeByte a b).started = s.started := rfl
@[simp] theorem writeByte_params (a : Nat) (b : Byte) : (s.writeByte a b).params = s.params := rfl
@[simp] theorem writeByte_draws (a : Nat) (b : Byte) : (s.writeByte a b).draws = s.draws := rfl
@[simp] theorem writeByte_pending (a : Nat) (b : Byte) : (s.writeByte a b).pending = s.pending := rfl
@[simp] theorem writeByte_reply (a : Nat) (b : Byte) : (s.writeByte a b).reply = s.reply := rfl
@[simp] theorem writeByte_report (a : Nat) (b : Byte) : (s.writeByte a b).report = s.report := rfl
@[simp] theorem writeByte_reg (a : Nat) (b : Byte) (q : RegIdx) : (s.writeByte a b).reg q = s.reg q := rfl
@[simp] theorem writeByte_cell (a : Nat) (b : Byte) (y : Fin 32) (x : Fin 64) : (s.writeByte a b).cell y x = s.cell y x := rfl

/-! ### `setScreen` -/

@[simp] theorem setScreen_v (g : Gfx) : (s.setScreen g).v = s.v := rfl
@[simp] theorem setScreen_pc (g : Gfx) : (s.setScreen g).pc = s.pc := rfl
@[simp] theorem setScreen_i (g : Gfx) : (s.setScreen g).i = s.i := rfl
@[simp] theorem setScreen_sp (g : Gfx) : (s.setScreen g).sp = s.sp := rfl
@[simp] theorem setScreen_stack (g : Gfx) : (s.setScreen g).stack = s.stack := rfl
@[simp] theorem setScreen_dt (g : Gfx) : (s.setScreen g).dt = s.dt := rfl
@[simp] theorem setScreen_st (g : Gfx) : (s.setScreen g).st = s.st := rfl
@[simp] theorem setScreen_mem (g : Gfx) : (s.setScreen g).mem = s.mem := rfl
@[simp] theorem setScreen_gfx (g : Gfx) : (s.setScreen g).gfx = g := rfl
@[simp] theorem setScreen_key (g : Gfx) : (s.setScreen g).key = s.key := rfl
@[simp] theorem setScreen_dirty (g : Gfx) : (s.setScreen g).dirty = true := rfl
@[simp] theorem setScreen_runState (g : Gfx) : (s.setScreen g).runState = s.runState := rfl
@[simp] theorem setScreen_started (g : Gfx) : (s.setScreen g).started = s.started := rfl
@[simp] theorem setScreen_params (g : Gfx) : (s.setScreen g).params = s.params := rfl
@[simp] theorem setScreen_draws (g : Gfx) : (s.setScreen g).draws = s.draws := rfl
@[simp] theorem setScreen_pending (g : Gfx) : (s.setScreen g).pending = s.pending := rfl
@[simp] theorem setScreen_reply (g : Gfx) : (s.setScreen g).reply = s.reply := rfl
@[simp] theorem setScreen_report (g : Gfx) : (s.setScreen g).report = s.report := rfl
@[simp] theorem setScreen_reg (g : Gfx) (q : RegIdx) : (s.setScreen g).reg q = s.reg q := rfl
@[simp] theorem setScreen_readByte (g : Gfx) (q : Nat) : (s.setScreen g).readByte q = s.readByte q := rfl
@[simp] theorem setScreen_fetch (g : Gfx) : (s.setScreen g).fetch = s.fetch := rfl

/-! ### `setKey` -/

@[simp] theorem setKey_v (k : KeyIdx) (b : Bool) : (s.setKey k b).v = s.v := rfl
@[simp] theorem setKey_pc (k : KeyIdx) (b : Bool) : (s.setKey k b).pc = s.pc := rfl
@[simp] theorem setKey_i (k : KeyIdx) (b : Bool) : (s.setKey k b).i = s.i := rfl
@[simp] theorem setKey_sp (k : KeyIdx) (b : Bool) : (s.setKey k b).sp = s.sp := rfl
@[simp] theorem setKey_stack (k : KeyIdx) (b : Bool) : (s.setKey k b).stack = s.stack := rfl
@[simp] theorem setKey_dt (k : KeyIdx) (b : Bool) : (s.setKey k b).dt = s.dt := rfl
@[simp] theorem setKey_st (k : KeyIdx) (b : Bool) : (s.setKey k b).st = s.st := rfl
@[simp] theorem setKey_mem (k : KeyIdx) (b : Bool) : (s.setKey k b).mem = s.mem := rfl
@[simp] theorem setKey_gfx (k : KeyIdx) (b : Bool) : (s.setKey k b).gfx = s.gfx := rfl
@[simp] theorem setKey_key (k : KeyIdx) (b : Bool) : (s.setKey k b).key = s.key.set k.val b k.isLt := rfl
@[simp] theorem setKey_dirty (k : KeyIdx) (b : Bool) : (s.setKey k b).dirty = s.dirty := rfl
@[simp] theorem setKey_runState (k : KeyIdx) (b : Bool) : (s.setKey k b).runState = s.runState := rfl
@[simp] theorem setKey_started (k : KeyIdx) (b : Bool) : (s.setKey k b).started = s.started := rfl
@[simp] theorem setKey_params (k : KeyIdx) (b : Bool) : (s.setKey k b).params = s.params := rfl
@[simp] theorem setKey_draws (k : KeyIdx) (b : Bool) : (s.setKey k b).draws = s.draws := rfl
@[simp] theorem setKey_pending (k : KeyIdx) (b : Bool) : (s.setKey k b).pending = s.pending := rfl
@[simp] theorem setKey_reply (k : KeyIdx) (b : Bool) : (s.setKey k b).reply = s.reply := rfl
@[simp] theorem setKey_report (k : KeyIdx) (b : Bool) : (s.setKey k b).report = s.report := rfl
@[simp] theorem setKey_reg (k : KeyIdx) (b : Bool) (q : RegIdx) : (s.setKey k b).reg q = s.reg q := rfl
@[simp] theorem setKey_readByte (k : KeyIdx) (b : Bool) (q : Nat) : (s.setKey k b).readByte q = s.readByte q := rfl
@[simp] theorem setKey_cell (k : KeyIdx) (b : Bool) (y : Fin 32) (x : Fin 64) : (s.setKey k b).cell y x = s.cell y x := rfl
@[simp] theorem setKey_fetch (k : KeyIdx) (b : Bool) : (s.setKey k b).fetch = s.fetch := rfl

/-! ### `setRunState` -/

@[simp] theorem setRunState_v (r : RunState) : (s.setRunState r).v = s.v := rfl
@[simp] theorem setRunState_pc (r : RunState) : (s.setRunState r).pc = s.pc := rfl
@[simp] theorem setRunState_i (r : RunState) : (s.setRunState r).i = s.i := rfl
@[simp] theorem setRunState_sp (r : RunState) : (s.setRunState r).sp = s.sp := rfl
@[simp] theorem setRunState_stack (r : RunState) : (s.setRunState r).stack = s.stack := rfl
@[simp] theorem setRunState_dt (r : RunState) : (s.setRunState r).dt = s.dt := rfl
@[simp] theorem setRunState_st (r : RunState) : (s.setRunState r).st = s.st := rfl
@[simp] theorem setRunState_mem (r : RunState) : (s.setRunState r).mem = s.mem := rfl
@[simp] theorem setRunState_gfx (r : RunState) : (s.setRunState r).gfx = s.gfx := rfl
@[simp] theorem setRunState_key (r : RunState) : (s.setRunState r).key = s.key := rfl
@[simp] theorem setRunState_dirty (r : RunState) : (s.setRunState r).dirty = s.dirty := rfl
@[simp] theorem setRunState_runState (r : RunState) : (s.setRunState r).runState = r := rfl
@[simp] theorem setRunState_started (r : RunState) : (s.setRunState r).started = s.started := rfl
@[simp] theorem setRunState_params (r : RunState) : (s.setRunState r).params = s.params := rfl
@[simp] theorem setRunState_draws (r : RunState) : (s.setRunState r).draws = s.draws := rfl
@[simp] theorem setRunState_pending (r : RunState) : (s.setRunState r).pending = s.pending := rfl
@[simp] theorem setRunState_reply (r : RunState) : (s.setRunState r).reply = s.reply := rfl
@[simp] theorem setRunState_report (r : RunState) : (s.setRunState r).report = s.report := rfl
@[simp] theorem setRunState_reg (r : RunState) (q : RegIdx) : (s.setRunState r).reg q = s.reg q := rfl
@[simp] theorem setRunState_readByte (r : RunState) (q : Nat) : (s.setRunState r).readByte q = s.readByte q := rfl
@[simp] theorem setRunState_cell (r : RunState) (y : Fin 32) (x : Fin 64) : (s.setRunState r).cell y x = s.cell y x := rfl
@[simp] theorem setRunState_fetch (r : RunState) : (s.setRunState r).fetch = s.fetch := rfl

/-! ### `raiseFault` -/

@[simp] theorem raiseFault_v (c : Cause) : (raiseFault c s).v = s.v := rfl
@[simp] theorem raiseFault_pc (c : Cause) : (raiseFault c s).pc = s.pc := rfl
@[simp] theorem raiseFault_i (c : Cause) : (raiseFault c s).i = s.i := rfl
@[simp] theorem raiseFault_sp (c : Cause) : (raiseFault c s).sp = s.sp := rfl
@[simp] theorem raiseFault_stack (c : Cause) : (raiseFault c s).stack = s.stack := rfl
@[simp] theorem raiseFault_dt (c : Cause) : (raiseFault c s).dt = s.dt := rfl
@[simp] theorem raiseFault_st (c : Cause) : (raiseFault c s).st = s.st := rfl
@[simp] theorem raiseFault_mem (c : Cause) : (raiseFault c s).mem = s.mem := rfl
@[simp] theorem raiseFault_gfx (c : Cause) : (raiseFault c s).gfx = s.gfx := rfl
@[simp] theorem raiseFault_key (c : Cause) : (raiseFault c s).key = s.key := rfl
@[simp] theorem raiseFault_dirty (c : Cause) : (raiseFault c s).dirty = s.dirty := rfl
@[simp] theorem raiseFault_runState (c : Cause) : (raiseFault c s).runState = .faulted ⟨c, s.pc⟩ := rfl
@[simp] theorem raiseFault_started (c : Cause) : (raiseFault c s).started = s.started := rfl
@[simp] theorem raiseFault_params (c : Cause) : (raiseFault c s).params = s.params := rfl
@[simp] theorem raiseFault_draws (c : Cause) : (raiseFault c s).draws = s.draws := rfl
@[simp] theorem raiseFault_pending (c : Cause) : (raiseFault c s).pending = s.pending := rfl
@[simp] theorem raiseFault_reply (c : Cause) : (raiseFault c s).reply = s.reply := rfl
@[simp] theorem raiseFault_report (c : Cause) : (raiseFault c s).report = s.report := rfl
@[simp] theorem raiseFault_reg (c : Cause) (q : RegIdx) : (raiseFault c s).reg q = s.reg q := rfl
@[simp] theorem raiseFault_readByte (c : Cause) (q : Nat) : (raiseFault c s).readByte q = s.readByte q := rfl
@[simp] theorem raiseFault_cell (c : Cause) (y : Fin 32) (x : Fin 64) : (raiseFault c s).cell y x = s.cell y x := rfl
@[simp] theorem raiseFault_fetch (c : Cause) : (raiseFault c s).fetch = s.fetch := rfl

/-! ### `takeDraw` -/

@[simp] theorem takeDraw_v : (s.takeDraw).v = s.v := rfl
@[simp] theorem takeDraw_pc : (s.takeDraw).pc = s.pc := rfl
@[simp] theorem takeDraw_i : (s.takeDraw).i = s.i := rfl
@[simp] theorem takeDraw_sp : (s.takeDraw).sp = s.sp := rfl
@[simp] theorem takeDraw_stack : (s.takeDraw).stack = s.stack := rfl
@[simp] theorem takeDraw_dt : (s.takeDraw).dt = s.dt := rfl
@[simp] theorem takeDraw_st : (s.takeDraw).st = s.st := rfl
@[simp] theorem takeDraw_mem : (s.takeDraw).mem = s.mem := rfl
@[simp] theorem takeDraw_gfx : (s.takeDraw).gfx = s.gfx := rfl
@[simp] theorem takeDraw_key : (s.takeDraw).key = s.key := rfl
@[simp] theorem takeDraw_dirty : (s.takeDraw).dirty = s.dirty := rfl
@[simp] theorem takeDraw_runState : (s.takeDraw).runState = s.runState := rfl
@[simp] theorem takeDraw_started : (s.takeDraw).started = s.started := rfl
@[simp] theorem takeDraw_params : (s.takeDraw).params = s.params := rfl
@[simp] theorem takeDraw_draws : (s.takeDraw).draws = s.draws + 1 := rfl
@[simp] theorem takeDraw_pending : (s.takeDraw).pending = s.pending := rfl
@[simp] theorem takeDraw_reply : (s.takeDraw).reply = s.reply := rfl
@[simp] theorem takeDraw_report : (s.takeDraw).report = s.report := rfl
@[simp] theorem takeDraw_reg (q : RegIdx) : (s.takeDraw).reg q = s.reg q := rfl
@[simp] theorem takeDraw_readByte (q : Nat) : (s.takeDraw).readByte q = s.readByte q := rfl
@[simp] theorem takeDraw_cell (y : Fin 32) (x : Fin 64) : (s.takeDraw).cell y x = s.cell y x := rfl
@[simp] theorem takeDraw_fetch : (s.takeDraw).fetch = s.fetch := rfl

/-! ### `markStarted` -/

@[simp] theorem markStarted_v : (s.markStarted).v = s.v := rfl
@[simp] theorem markStarted_pc : (s.markStarted).pc = s.pc := rfl
@[simp] theorem markStarted_i : (s.markStarted).i = s.i := rfl
@[simp] theorem markStarted_sp : (s.markStarted).sp = s.sp := rfl
@[simp] theorem markStarted_stack : (s.markStarted).stack = s.stack := rfl
@[simp] theorem markStarted_dt : (s.markStarted).dt = s.dt := rfl
@[simp] theorem markStarted_st : (s.markStarted).st = s.st := rfl
@[simp] theorem markStarted_mem : (s.markStarted).mem = s.mem := rfl
@[simp] theorem markStarted_gfx : (s.markStarted).gfx = s.gfx := rfl
@[simp] theorem markStarted_key : (s.markStarted).key = s.key := rfl
@[simp] theorem markStarted_dirty : (s.markStarted).dirty = s.dirty := rfl
@[simp] theorem markStarted_runState : (s.markStarted).runState = s.runState := rfl
@[simp] theorem markStarted_started : (s.markStarted).started = true := rfl
@[simp] theorem markStarted_params : (s.markStarted).params = s.params := rfl
@[simp] theorem markStarted_draws : (s.markStarted).draws = s.draws := rfl
@[simp] theorem markStarted_pending : (s.markStarted).pending = s.pending := rfl
@[simp] theorem markStarted_reply : (s.markStarted).reply = s.reply := rfl
@[simp] theorem markStarted_report : (s.markStarted).report = s.report := rfl
@[simp] theorem markStarted_reg (q : RegIdx) : (s.markStarted).reg q = s.reg q := rfl
@[simp] theorem markStarted_readByte (q : Nat) : (s.markStarted).readByte q = s.readByte q := rfl
@[simp] theorem markStarted_cell (y : Fin 32) (x : Fin 64) : (s.markStarted).cell y x = s.cell y x := rfl
@[simp] theorem markStarted_fetch : (s.markStarted).fetch = s.fetch := rfl

/-! ### `clearDirtyFlag` -/

@[simp] theorem clearDirtyFlag_v : (s.clearDirtyFlag).v = s.v := rfl
@[simp] theorem clearDirtyFlag_pc : (s.clearDirtyFlag).pc = s.pc := rfl
@[simp] theorem clearDirtyFlag_i : (s.clearDirtyFlag).i = s.i := rfl
@[simp] theorem clearDirtyFlag_sp : (s.clearDirtyFlag).sp = s.sp := rfl
@[simp] theorem clearDirtyFlag_stack : (s.clearDirtyFlag).stack = s.stack := rfl
@[simp] theorem clearDirtyFlag_dt : (s.clearDirtyFlag).dt = s.dt := rfl
@[simp] theorem clearDirtyFlag_st : (s.clearDirtyFlag).st = s.st := rfl
@[simp] theorem clearDirtyFlag_mem : (s.clearDirtyFlag).mem = s.mem := rfl
@[simp] theorem clearDirtyFlag_gfx : (s.clearDirtyFlag).gfx = s.gfx := rfl
@[simp] theorem clearDirtyFlag_key : (s.clearDirtyFlag).key = s.key := rfl
@[simp] theorem clearDirtyFlag_dirty : (s.clearDirtyFlag).dirty = false := rfl
@[simp] theorem clearDirtyFlag_runState : (s.clearDirtyFlag).runState = s.runState := rfl
@[simp] theorem clearDirtyFlag_started : (s.clearDirtyFlag).started = s.started := rfl
@[simp] theorem clearDirtyFlag_params : (s.clearDirtyFlag).params = s.params := rfl
@[simp] theorem clearDirtyFlag_draws : (s.clearDirtyFlag).draws = s.draws := rfl
@[simp] theorem clearDirtyFlag_pending : (s.clearDirtyFlag).pending = s.pending := rfl
@[simp] theorem clearDirtyFlag_reply : (s.clearDirtyFlag).reply = s.reply := rfl
@[simp] theorem clearDirtyFlag_report : (s.clearDirtyFlag).report = s.report := rfl
@[simp] theorem clearDirtyFlag_reg (q : RegIdx) : (s.clearDirtyFlag).reg q = s.reg q := rfl
@[simp] theorem clearDirtyFlag_readByte (q : Nat) : (s.clearDirtyFlag).readByte q = s.readByte q := rfl
@[simp] theorem clearDirtyFlag_cell (y : Fin 32) (x : Fin 64) : (s.clearDirtyFlag).cell y x = s.cell y x := rfl
@[simp] theorem clearDirtyFlag_fetch : (s.clearDirtyFlag).fetch = s.fetch := rfl

/-! ### `answer` -/

@[simp] theorem answer_v (r : Reply) : (s.answer r).v = s.v := rfl
@[simp] theorem answer_pc (r : Reply) : (s.answer r).pc = s.pc := rfl
@[simp] theorem answer_i (r : Reply) : (s.answer r).i = s.i := rfl
@[simp] theorem answer_sp (r : Reply) : (s.answer r).sp = s.sp := rfl
@[simp] theorem answer_stack (r : Reply) : (s.answer r).stack = s.stack := rfl
@[simp] theorem answer_dt (r : Reply) : (s.answer r).dt = s.dt := rfl
@[simp] theorem answer_st (r : Reply) : (s.answer r).st = s.st := rfl
@[simp] theorem answer_mem (r : Reply) : (s.answer r).mem = s.mem := rfl
@[simp] theorem answer_gfx (r : Reply) : (s.answer r).gfx = s.gfx := rfl
@[simp] theorem answer_key (r : Reply) : (s.answer r).key = s.key := rfl
@[simp] theorem answer_dirty (r : Reply) : (s.answer r).dirty = s.dirty := rfl
@[simp] theorem answer_runState (r : Reply) : (s.answer r).runState = s.runState := rfl
@[simp] theorem answer_started (r : Reply) : (s.answer r).started = s.started := rfl
@[simp] theorem answer_params (r : Reply) : (s.answer r).params = s.params := rfl
@[simp] theorem answer_draws (r : Reply) : (s.answer r).draws = s.draws := rfl
@[simp] theorem answer_pending (r : Reply) : (s.answer r).pending = s.pending := rfl
@[simp] theorem answer_reply (r : Reply) : (s.answer r).reply = r := rfl
@[simp] theorem answer_report (r : Reply) : (s.answer r).report = s.report := rfl
@[simp] theorem answer_reg (r : Reply) (q : RegIdx) : (s.answer r).reg q = s.reg q := rfl
@[simp] theorem answer_readByte (r : Reply) (q : Nat) : (s.answer r).readByte q = s.readByte q := rfl
@[simp] theorem answer_cell (r : Reply) (y : Fin 32) (x : Fin 64) : (s.answer r).cell y x = s.cell y x := rfl
@[simp] theorem answer_fetch (r : Reply) : (s.answer r).fetch = s.fetch := rfl

/-! ### `emit` -/

@[simp] theorem emit_v (d : Report) : (s.emit d).v = s.v := rfl
@[simp] theorem emit_pc (d : Report) : (s.emit d).pc = s.pc := rfl
@[simp] theorem emit_i (d : Report) : (s.emit d).i = s.i := rfl
@[simp] theorem emit_sp (d : Report) : (s.emit d).sp = s.sp := rfl
@[simp] theorem emit_stack (d : Report) : (s.emit d).stack = s.stack := rfl
@[simp] theorem emit_dt (d : Report) : (s.emit d).dt = s.dt := rfl
@[simp] theorem emit_st (d : Report) : (s.emit d).st = s.st := rfl
@[simp] theorem emit_mem (d : Report) : (s.emit d).mem = s.mem := rfl
@[simp] theorem emit_gfx (d : Report) : (s.emit d).gfx = s.gfx := rfl
@[simp] theorem emit_key (d : Report) : (s.emit d).key = s.key := rfl
@[simp] theorem emit_dirty (d : Report) : (s.emit d).dirty = s.dirty := rfl
@[simp] theorem emit_runState (d : Report) : (s.emit d).runState = s.runState := rfl
@[simp] theorem emit_started (d : Report) : (s.emit d).started = s.started := rfl
@[simp] theorem emit_params (d : Report) : (s.emit d).params = s.params := rfl
@[simp] theorem emit_draws (d : Report) : (s.emit d).draws = s.draws := rfl
@[simp] theorem emit_pending (d : Report) : (s.emit d).pending = s.pending := rfl
@[simp] theorem emit_reply (d : Report) : (s.emit d).reply = s.reply := rfl
@[simp] theorem emit_report (d : Report) : (s.emit d).report = some d := rfl
@[simp] theorem emit_reg (d : Report) (q : RegIdx) : (s.emit d).reg q = s.reg q := rfl
@[simp] theorem emit_readByte (d : Report) (q : Nat) : (s.emit d).readByte q = s.readByte q := rfl
@[simp] theorem emit_cell (d : Report) (y : Fin 32) (x : Fin 64) : (s.emit d).cell y x = s.cell y x := rfl
@[simp] theorem emit_fetch (d : Report) : (s.emit d).fetch = s.fetch := rfl

/-! ### `takeTransaction` -/

@[simp] theorem takeTransaction_v : (s.takeTransaction).v = s.v := rfl
@[simp] theorem takeTransaction_pc : (s.takeTransaction).pc = s.pc := rfl
@[simp] theorem takeTransaction_i : (s.takeTransaction).i = s.i := rfl
@[simp] theorem takeTransaction_sp : (s.takeTransaction).sp = s.sp := rfl
@[simp] theorem takeTransaction_stack : (s.takeTransaction).stack = s.stack := rfl
@[simp] theorem takeTransaction_dt : (s.takeTransaction).dt = s.dt := rfl
@[simp] theorem takeTransaction_st : (s.takeTransaction).st = s.st := rfl
@[simp] theorem takeTransaction_mem : (s.takeTransaction).mem = s.mem := rfl
@[simp] theorem takeTransaction_gfx : (s.takeTransaction).gfx = s.gfx := rfl
@[simp] theorem takeTransaction_key : (s.takeTransaction).key = s.key := rfl
@[simp] theorem takeTransaction_dirty : (s.takeTransaction).dirty = s.dirty := rfl
@[simp] theorem takeTransaction_runState : (s.takeTransaction).runState = s.runState := rfl
@[simp] theorem takeTransaction_started : (s.takeTransaction).started = s.started := rfl
@[simp] theorem takeTransaction_params : (s.takeTransaction).params = s.params := rfl
@[simp] theorem takeTransaction_draws : (s.takeTransaction).draws = s.draws := rfl
@[simp] theorem takeTransaction_pending : (s.takeTransaction).pending = s.pending.tail := rfl
@[simp] theorem takeTransaction_reply : (s.takeTransaction).reply = s.reply := rfl
@[simp] theorem takeTransaction_report : (s.takeTransaction).report = none := rfl
@[simp] theorem takeTransaction_reg (q : RegIdx) : (s.takeTransaction).reg q = s.reg q := rfl
@[simp] theorem takeTransaction_readByte (q : Nat) : (s.takeTransaction).readByte q = s.readByte q := rfl
@[simp] theorem takeTransaction_cell (y : Fin 32) (x : Fin 64) : (s.takeTransaction).cell y x = s.cell y x := rfl
@[simp] theorem takeTransaction_fetch : (s.takeTransaction).fetch = s.fetch := rfl

/-! ### Compositions -/

@[simp] theorem advance_eq : s.advance = s.jump (s.pc + 2) := rfl
@[simp] theorem skipIf_eq (b : Bool) : s.skipIf b = s.jump (s.pc + if b then 4 else 2) := rfl
@[simp] theorem setRegFlag_eq (x : RegIdx) (b f : Byte) : s.setRegFlag x b f = (s.setReg x b).setReg vf f := rfl

/-! ### Registers -/

@[simp] theorem setReg_reg (r q : RegIdx) (b : Byte) :
    (s.setReg r b).reg q = if q = r then b else s.reg q := by
  simp [State.reg]

@[simp] theorem setScreen_cell (g : Gfx) (y : Fin 32) (x : Fin 64) :
    (s.setScreen g).cell y x = (g.get y).get x := rfl

/-! ### Keys -/

theorem setKey_get (k j : KeyIdx) (b : Bool) :
    (s.setKey k b).key.get j = if j = k then b else s.key.get j := by simp

/-! ### A run of registers -/

@[simp] theorem loadRegRun_reg (x q : RegIdx) :
    (s.loadRegRun x).reg q = if q ≤ x then s.readByte (s.addrAt q.val) else s.reg q := by
  simp [State.reg, State.loadRegRun, Vector.get_eq_getElem]

end

end Sys2Proof.Machine
end

