-- ==== Sys2Proof/Laws/Memory.lean ====
section
/-! SUPPORT. Memory: what a read gives after a write, that every write keeps the canonical form, that the form
makes equal memories equal data, which addresses an access checks, and runs of stores. -/

namespace Sys2Proof.Machine

/-! ### Lookup after erase and put -/

theorem Memory.lookup_erase (m : Memory) (a b : Nat) :
    (m.erase a).lookup b = if b = a then none else m.lookup b := by
  induction m with
  | nil => simp [erase, lookup]
  | cons c m ih =>
    simp only [erase] at ih
    by_cases hc : c.1 = a <;> by_cases hb : c.1 = b <;> by_cases hab : b = a <;>
      simp_all [erase, lookup]

theorem Memory.lookup_put (m : Memory) (a : Nat) (v : Byte) (b : Nat) :
    (m.put a v).lookup b = if b = a then some v else m.lookup b := by
  induction m with
  | nil => simp [put, lookup, eq_comm]
  | cons c m ih =>
    by_cases hb : b = a
    · subst hb
      by_cases h1 : b < c.1
      · simp [put, lookup, h1]
      · by_cases h2 : b = c.1
        · simp [put, lookup, ← h2]
        · simp [put, lookup, h1, h2, ih, Ne.symm h2]
    · have hb' : ¬ a = b := fun e => hb e.symm
      by_cases h1 : a < c.1
      · simp [put, lookup, h1, hb, hb']
      · by_cases h2 : a = c.1
        · simp [put, lookup, ← h2, hb, hb']
        · simp [put, lookup, h1, h2, ih, hb]

/-! ### Read after write -/

theorem Memory.read_write (p : Params) (m : Memory) (a : Nat) (v : Byte) (b : Nat) :
    (m.write p a v).read p b = if b = a then v else m.read p b := by
  unfold write
  split <;> rename_i h <;> by_cases hb : b = a <;> simp [read, lookup_erase, lookup_put, hb, h]

@[simp] theorem writeByte_readByte (s : State) (a : Nat) (v : Byte) (b : Nat) :
    (s.writeByte a v).readByte b = if b = a then v else s.readByte b :=
  Memory.read_write s.params s.mem a v b

/-! ### The canonical form -/

theorem Memory.mem_put {m : Memory} {a : Nat} {v : Byte} {c : Host.Cell} (h : c ∈ m.put a v) :
    c = (a, v) ∨ c ∈ m := by
  induction m with
  | nil => simpa [put] using h
  | cons d m ih =>
    simp only [put] at h
    split at h
    · simpa using h
    · split at h
      · simp only [List.mem_cons] at h ⊢
        tauto
      · simp only [List.mem_cons] at h ⊢
        rcases h with h | h
        · tauto
        · rcases ih h with h | h <;> tauto

theorem Memory.rising_put {m : Memory} (h : m.Pairwise fun c d => c.1 < d.1) (a : Nat) (v : Byte) :
    (m.put a v).Pairwise fun c d => c.1 < d.1 := by
  induction m with
  | nil => simp [put]
  | cons d m ih =>
    rw [List.pairwise_cons] at h
    simp only [put]
    split
    · rename_i had
      refine List.pairwise_cons.2 ⟨fun c hc => ?_, List.pairwise_cons.2 h⟩
      rcases List.mem_cons.1 hc with rfl | hc
      · exact had
      · exact Nat.lt_trans had (h.1 c hc)
    · split
      · rename_i hda
        exact List.pairwise_cons.2 ⟨fun c hc => by simpa [hda] using h.1 c hc, h.2⟩
      · refine List.pairwise_cons.2 ⟨fun c hc => ?_, ih h.2⟩
        rcases mem_put hc with rfl | hc
        · show d.1 < a
          omega
        · exact h.1 c hc

/-- A write inside memory keeps the canonical form. -/
theorem Memory.wf_write {p : Params} {m : Memory} (h : m.wf p) {a : Nat} (ha : a < memSize) (v : Byte) :
    (m.write p a v).wf p := by
  unfold write
  split
  · exact ⟨h.1.filter _, fun c hc => h.2 c (List.mem_of_mem_filter hc)⟩
  · rename_i hv
    refine ⟨rising_put h.1 a v, fun c hc => ?_⟩
    rcases mem_put hc with rfl | hc
    · exact ⟨ha, hv⟩
    · exact h.2 c hc

theorem Memory.wf_nil (p : Params) : Memory.wf p [] := by simp [wf]

theorem Memory.lookup_eq_none_of_lt {m : Memory} {a : Nat} (h : ∀ c ∈ m, a < c.1) : m.lookup a = none := by
  induction m with
  | nil => rfl
  | cons c m ih =>
    have hc : c.1 ≠ a := fun e => by have := h c (by simp); omega
    simpa [lookup, hc] using ih fun d hd => h d (by simp [hd])

/-- A listed cell of a canonical memory is what its address reads as. -/
theorem Memory.read_of_mem {p : Params} {m : Memory} (h : m.wf p) {c : Host.Cell} (hc : c ∈ m) :
    m.read p c.1 = c.2 := by
  induction m with
  | nil => simp at hc
  | cons d m ih =>
    rcases List.mem_cons.1 hc with rfl | hc
    · simp [read, lookup]
    · have hlt : d.1 < c.1 := (List.pairwise_cons.1 h.1).1 c hc
      have hne : d.1 ≠ c.1 := Nat.ne_of_lt hlt
      have := ih ⟨(List.pairwise_cons.1 h.1).2, fun e he => h.2 e (by simp [he])⟩ hc
      simpa [read, lookup, hne] using this

/-- The reads of a canonical memory below its first cell are reset values. -/
theorem Memory.read_of_lt {p : Params} {m : Memory} {a : Nat} (h : ∀ c ∈ m, a < c.1) :
    m.read p a = resetByte p a := by simp [read, lookup_eq_none_of_lt h]

/-! ### Which addresses an access checks (R55, R56) -/

theorem lowestOutside_eq_none {a n : Nat} : lowestOutside a n = none ↔ n = 0 ∨ a + n ≤ memSize := by
  simp only [lowestOutside, List.find?_eq_none, List.mem_map, List.mem_range]
  constructor
  · intro h
    by_cases hn : n = 0
    · exact .inl hn
    · right
      have := h (a + (n - 1)) ⟨n - 1, by omega, rfl⟩
      simp at this
      simp only [memSize]; omega
  · rintro h b ⟨k, hk, rfl⟩
    simp only [memSize] at h
    simp; omega

/-- A failing access reports the lowest address above 0xFFF among those it touches. -/
theorem lowestOutside_eq_some {a n b : Nat} :
    lowestOutside a n = some b ↔ 0 < n ∧ memSize < a + n ∧ b = max a memSize := by
  have key : lowestOutside a n ≠ none ↔ 0 < n ∧ memSize < a + n := by
    rw [Ne, lowestOutside_eq_none]; omega
  have low : ∀ b, lowestOutside a n = some b → b = max a memSize := by
    intro b h
    simp only [lowestOutside, List.find?_eq_some_iff_getElem] at h
    obtain ⟨hb, j, hj, hget, hmin⟩ := h
    simp at hget hj hb
    subst hget
    by_cases h0 : j = 0
    · simp [memSize]; omega
    · have := hmin (j - 1) (by omega)
      simp at this
      simp only [memSize]; omega
  constructor
  · intro h
    obtain ⟨h1, h2⟩ := key.1 (by simp [h])
    exact ⟨h1, h2, low b h⟩
  · rintro ⟨h1, h2, rfl⟩
    obtain ⟨c, hc⟩ := Option.ne_none_iff_exists'.1 (key.2 ⟨h1, h2⟩)
    rw [hc, low c hc]

/-! ### Runs of stores -/

/-- After `writeBytes a bs`, the bytes from `a` on are those of `bs` and every other byte is as before. -/
theorem writeBytes_readByte (bs : List Byte) : ∀ (s : State) (a b : Nat),
    (s.writeBytes a bs).readByte b =
      if h : a ≤ b ∧ b < a + bs.length then bs[b - a]'(by omega) else s.readByte b := by
  induction bs with
  | nil => intro s a b; simp [State.writeBytes]
  | cons v bs ih =>
    intro s a b
    rw [State.writeBytes, ih]
    simp only [writeByte_readByte, List.length_cons]
    by_cases h1 : b = a
    · subst h1
      simp
    · by_cases h2 : a + 1 ≤ b ∧ b < a + 1 + bs.length
      · have h3 : a ≤ b ∧ b < a + (bs.length + 1) := by omega
        obtain ⟨k, hk⟩ : ∃ k, b - a = k + 1 := ⟨b - a - 1, by omega⟩
        have hk' : b - (a + 1) = k := by omega
        simp [h2, h3, hk, hk']
      · have h3 : ¬ (a ≤ b ∧ b < a + (bs.length + 1)) := by omega
        rw [dif_neg h2, dif_neg h3, if_neg h1]

theorem writeBytes_wf (bs : List Byte) : ∀ (s : State) (a : Nat), s.mem.wf s.params → a + bs.length ≤ memSize →
    (s.writeBytes a bs).mem.wf (s.writeBytes a bs).params := by
  induction bs with
  | nil => intro s a h _; exact h
  | cons v bs ih =>
    intro s a h hb
    simp only [List.length_cons] at hb
    exact ih _ _ (Memory.wf_write h (by omega) v) (by omega)

section

variable (s : State) (a : Nat) (bs : List Byte)

/-- A run of stores writes memory and nothing else. -/
theorem writeBytes_eq : s.writeBytes a bs = { s with mem := (s.writeBytes a bs).mem } := by
  induction bs generalizing s a with
  | nil => rfl
  | cons v bs ih => rw [State.writeBytes, ih]; rfl

@[simp] theorem writeBytes_v : (s.writeBytes a bs).v = s.v := by rw [writeBytes_eq]
@[simp] theorem writeBytes_pc : (s.writeBytes a bs).pc = s.pc := by rw [writeBytes_eq]
@[simp] theorem writeBytes_i : (s.writeBytes a bs).i = s.i := by rw [writeBytes_eq]
@[simp] theorem writeBytes_sp : (s.writeBytes a bs).sp = s.sp := by rw [writeBytes_eq]
@[simp] theorem writeBytes_stack : (s.writeBytes a bs).stack = s.stack := by rw [writeBytes_eq]
@[simp] theorem writeBytes_dt : (s.writeBytes a bs).dt = s.dt := by rw [writeBytes_eq]
@[simp] theorem writeBytes_st : (s.writeBytes a bs).st = s.st := by rw [writeBytes_eq]
@[simp] theorem writeBytes_gfx : (s.writeBytes a bs).gfx = s.gfx := by rw [writeBytes_eq]
@[simp] theorem writeBytes_key : (s.writeBytes a bs).key = s.key := by rw [writeBytes_eq]
@[simp] theorem writeBytes_dirty : (s.writeBytes a bs).dirty = s.dirty := by rw [writeBytes_eq]
@[simp] theorem writeBytes_runState : (s.writeBytes a bs).runState = s.runState := by rw [writeBytes_eq]
@[simp] theorem writeBytes_started : (s.writeBytes a bs).started = s.started := by rw [writeBytes_eq]
@[simp] theorem writeBytes_params : (s.writeBytes a bs).params = s.params := by rw [writeBytes_eq]
@[simp] theorem writeBytes_draws : (s.writeBytes a bs).draws = s.draws := by rw [writeBytes_eq]
@[simp] theorem writeBytes_pending : (s.writeBytes a bs).pending = s.pending := by rw [writeBytes_eq]
@[simp] theorem writeBytes_reply : (s.writeBytes a bs).reply = s.reply := by rw [writeBytes_eq]
@[simp] theorem writeBytes_report : (s.writeBytes a bs).report = s.report := by rw [writeBytes_eq]
@[simp] theorem writeBytes_reg (r : RegIdx) : (s.writeBytes a bs).reg r = s.reg r := by rw [writeBytes_eq]; rfl
@[simp] theorem writeBytes_cell (y : Fin 32) (x : Fin 64) : (s.writeBytes a bs).cell y x = s.cell y x := by
  rw [writeBytes_eq]; rfl

end

end Sys2Proof.Machine
end

