-- ==== Sys2Proof/Laws/Display.lean ====
section
/-! SUPPORT. Compositing a sprite, in closed form: each cell is flipped iff a sprite bit lands on it, and there is a
collision iff a bit lands on a set cell. -/

namespace Sys2Proof.Machine

/-- A cell of a framebuffer. -/
abbrev Gfx.at (g : Gfx) (y : Fin 32) (x : Fin 64) : Bool := (g.get y).get x

/-- The sprite bit that lands on row `y`, column `x` when `rows` is drawn at `(x0, y0)`: row `y - y0`, bit
`7 - (x - x0)`, and 0 outside the sprite (R170). -/
def spriteBit (x0 y0 : Nat) (rows : List Byte) (y x : Nat) : Bool :=
  if y0 ≤ y ∧ x0 ≤ x ∧ x < x0 + 8 then
    match rows[y - y0]? with
    | some row => row.getLsbD (7 - (x - x0))
    | none => false
  else false

/-- Two framebuffers with the same cells are the same. -/
theorem Gfx.ext {g g' : Gfx} (h : ∀ y x, g.at y x = g'.at y x) : g = g' := by
  apply Vector.ext
  intro y hy
  apply Vector.ext
  intro x hx
  simpa [Gfx.at, Vector.get_eq_getElem] using h ⟨y, hy⟩ ⟨x, hx⟩

section

variable (x0 Y : Nat) (row : Byte)

/-- One bit flips at most its own cell. -/
theorem plotBit_at (acc : Gfx × Bool) (c : Nat) (y : Fin 32) (x : Fin 64) :
    (plotBit x0 Y row acc c).1.at y x =
      (acc.1.at y x ^^ (decide (y.val = Y ∧ x.val = x0 + c) && row.getLsbD (7 - c))) := by
  unfold plotBit
  split <;> rename_i hbit
  · split <;> rename_i hon
    · simp only [Gfx.at, Vector.get_eq_getElem, hbit, Bool.and_true]
      by_cases hy : Y = y.val
      · subst hy
        by_cases hx : x0 + c = x.val
        · simp [hx]
        · simp [hx, Ne.symm hx]
      · simp [hy, Ne.symm hy]
    · have : ¬ (y.val = Y ∧ x.val = x0 + c) := by
        rintro ⟨rfl, hx⟩
        exact hon ⟨hx ▸ x.isLt, y.isLt⟩
      simp [this]
  · simp [hbit]

/-- One bit is a hit iff it is 1 and lands on a set cell. -/
theorem plotBit_hit (acc : Gfx × Bool) (c : Nat) : (plotBit x0 Y row acc c).2 = true ↔
    acc.2 = true ∨ ∃ y x, acc.1.at y x = true ∧ y.val = Y ∧ x.val = x0 + c ∧ row.getLsbD (7 - c) = true := by
  unfold plotBit
  split <;> rename_i hbit
  · split <;> rename_i hon
    · simp only [Bool.or_eq_true, hbit, and_true]
      refine or_congr_right ⟨fun h => ⟨⟨Y, hon.2⟩, ⟨x0 + c, hon.1⟩, h, rfl, rfl⟩, ?_⟩
      rintro ⟨y, x, h, rfl, hx⟩
      have : x = ⟨x0 + c, hon.1⟩ := Fin.ext hx
      rwa [this] at h
    · refine ⟨Or.inl, ?_⟩
      rintro (h | ⟨y, x, -, rfl, hx, -⟩)
      · exact h
      · exact absurd ⟨hx ▸ x.isLt, y.isLt⟩ hon
  · simp [hbit]

/-- The first `n` bits of a row byte. -/
def rowBit (n : Nat) (y : Fin 32) (x : Fin 64) : Bool :=
  decide (y.val = Y ∧ x0 ≤ x.val ∧ x.val < x0 + n) && row.getLsbD (7 - (x.val - x0))

theorem rowBit_succ (n : Nat) (y : Fin 32) (x : Fin 64) : rowBit x0 Y row (n + 1) y x =
    (rowBit x0 Y row n y x ^^ (decide (y.val = Y ∧ x.val = x0 + n) && row.getLsbD (7 - n))) := by
  unfold rowBit
  by_cases hx : x.val = x0 + n
  · have h1 : ¬ (x.val < x0 + n) := by omega
    have h2 : x0 ≤ x.val := by omega
    have h3 : x.val - x0 = n := by omega
    simp [hx]
  · have h1 : x.val < x0 + (n + 1) ↔ x.val < x0 + n := by omega
    simp [hx, h1]

theorem plotBits_at (acc : Gfx × Bool) (n : Nat) (y : Fin 32) (x : Fin 64) :
    ((List.range n).foldl (plotBit x0 Y row) acc).1.at y x = (acc.1.at y x ^^ rowBit x0 Y row n y x) := by
  induction n with
  | zero =>
    have : ¬ (y.val = Y ∧ x0 ≤ x.val ∧ x.val < x0 + 0) := by omega
    simp only [List.range_zero, List.foldl_nil, rowBit, decide_eq_false this, Bool.false_and, Bool.xor_false]
  | succ n ih =>
    rw [List.range_succ, List.foldl_append, List.foldl_cons, List.foldl_nil, plotBit_at, ih, rowBit_succ,
      Bool.xor_assoc]

theorem plotBits_hit (acc : Gfx × Bool) (n : Nat) :
    ((List.range n).foldl (plotBit x0 Y row) acc).2 = true ↔
      acc.2 = true ∨ ∃ y x, acc.1.at y x = true ∧ rowBit x0 Y row n y x = true := by
  induction n with
  | zero =>
    simp [rowBit]
  | succ n ih =>
    rw [List.range_succ, List.foldl_append, List.foldl_cons, List.foldl_nil, plotBit_hit, ih]
    constructor
    · rintro ((h | ⟨y, x, hc, hb⟩) | ⟨y, x, hc, hy, hx, hb⟩)
      · exact .inl h
      · refine .inr ⟨y, x, hc, ?_⟩
        have hb' := hb
        simp only [rowBit, Bool.and_eq_true, decide_eq_true_eq] at hb ⊢
        exact ⟨⟨hb.1.1, hb.1.2.1, by omega⟩, hb.2⟩
      · refine .inr ⟨y, x, ?_, ?_⟩
        · rw [plotBits_at] at hc
          have : rowBit x0 Y row n y x = false := by
            simp [rowBit]; omega
          simpa [this] using hc
        · have h3 : x.val - x0 = n := by omega
          simp only [rowBit, Bool.and_eq_true, decide_eq_true_eq, h3]
          exact ⟨⟨hy, by omega, by omega⟩, hb⟩
    · rintro (h | ⟨y, x, hc, hb⟩)
      · exact .inl (.inl h)
      · have hb' := hb
        simp only [rowBit, Bool.and_eq_true, decide_eq_true_eq] at hb
        by_cases hx : x.val = x0 + n
        · refine .inr ⟨y, x, ?_, hb.1.1, hx, ?_⟩
          · rw [plotBits_at]
            have : rowBit x0 Y row n y x = false := by
              simp [rowBit]; omega
            simpa [this] using hc
          · have h3 : x.val - x0 = n := by omega
            simpa [h3] using hb.2
        · refine .inl (.inr ⟨y, x, hc, ?_⟩)
          simp only [rowBit, Bool.and_eq_true, decide_eq_true_eq]
          exact ⟨⟨hb.1.1, hb.1.2.1, by omega⟩, hb.2⟩

end

/-- The bit of a sprite is that of its first row or of the rows below it. -/
theorem spriteBit_cons (x0 Y : Nat) (row : Byte) (rows : List Byte) (y : Fin 32) (x : Fin 64) :
    spriteBit x0 Y (row :: rows) y x = (rowBit x0 Y row 8 y x ^^ spriteBit x0 (Y + 1) rows y x) := by
  unfold spriteBit rowBit
  by_cases hx : x0 ≤ x.val ∧ x.val < x0 + 8
  · by_cases hy : y.val = Y
    · simp [hx, hy]
    · by_cases hlt : Y + 1 ≤ y.val
      · obtain ⟨k, hk⟩ : ∃ k, y.val - Y = k + 1 := ⟨y.val - Y - 1, by omega⟩
        have hk' : y.val - (Y + 1) = k := by omega
        have hle : Y ≤ y.val := by omega
        simp [hx, hy, hlt, hle, hk, hk']
      · have hle : ¬ Y ≤ y.val := by omega
        simp [hy, hlt, hle]
  · have h1 : ¬ (Y ≤ y.val ∧ x0 ≤ x.val ∧ x.val < x0 + 8) := by tauto
    have h2 : ¬ (Y + 1 ≤ y.val ∧ x0 ≤ x.val ∧ x.val < x0 + 8) := by tauto
    have h3 : ¬ (y.val = Y ∧ x0 ≤ x.val ∧ x.val < x0 + 8) := by tauto
    rw [if_neg h1, if_neg h2, decide_eq_false h3]; rfl

theorem rowBit_spriteBit_disjoint {x0 Y : Nat} {row : Byte} {rows : List Byte} {y : Fin 32} {x : Fin 64}
    (h : spriteBit x0 (Y + 1) rows y x = true) : rowBit x0 Y row 8 y x = false := by
  have : Y + 1 ≤ y.val := by
    unfold spriteBit at h
    split at h
    · rename_i hc; exact hc.1
    · simp at h
  simp [rowBit]; omega

theorem plotRows_at (x0 : Nat) (rows : List Byte) (y : Fin 32) (x : Fin 64) : ∀ (Y : Nat) (acc : Gfx × Bool),
    (plotRows x0 Y rows acc).1.at y x = (acc.1.at y x ^^ spriteBit x0 Y rows y x) := by
  induction rows with
  | nil => intro Y acc; simp [plotRows, spriteBit]
  | cons row rows ih =>
    intro Y acc
    rw [plotRows, ih, plotRow, plotBits_at, spriteBit_cons, Bool.xor_assoc]

theorem plotRows_hit (x0 : Nat) (rows : List Byte) : ∀ (Y : Nat) (acc : Gfx × Bool),
    (plotRows x0 Y rows acc).2 = true ↔
      acc.2 = true ∨ ∃ y x, acc.1.at y x = true ∧ spriteBit x0 Y rows y x = true := by
  induction rows with
  | nil => intro Y acc; simp [plotRows, spriteBit]
  | cons row rows ih =>
    intro Y acc
    rw [plotRows, ih, plotRow, plotBits_hit]
    constructor
    · rintro ((h | ⟨y, x, hc, hb⟩) | ⟨y, x, hc, hb⟩)
      · exact .inl h
      · refine .inr ⟨y, x, hc, ?_⟩
        rw [spriteBit_cons, hb]
        cases hs : spriteBit x0 (Y + 1) rows y x
        · rfl
        · rw [rowBit_spriteBit_disjoint hs] at hb
          simp at hb
      · refine .inr ⟨y, x, ?_, ?_⟩
        · simpa [plotBits_at, rowBit_spriteBit_disjoint hb] using hc
        · rw [spriteBit_cons, hb, rowBit_spriteBit_disjoint hb]
          rfl
    · rintro (h | ⟨y, x, hc, hb⟩)
      · exact .inl (.inl h)
      · cases hs : spriteBit x0 (Y + 1) rows y x
        · exact .inl (.inr ⟨y, x, hc, by simpa [spriteBit_cons, hs] using hb⟩)
        · exact .inr ⟨y, x, by simpa [plotBits_at, rowBit_spriteBit_disjoint hs] using hc, hs⟩

/-- Drawing flips exactly the cells a sprite bit lands on. -/
theorem drawSprite_at (x0 y0 : Nat) (rows : List Byte) (g : Gfx) (y : Fin 32) (x : Fin 64) :
    (drawSprite x0 y0 rows g).1.at y x = (g.at y x ^^ spriteBit x0 y0 rows y x) :=
  plotRows_at x0 rows y x y0 (g, false)

/-- Drawing collides iff a sprite bit lands on a set cell. -/
theorem drawSprite_hit (x0 y0 : Nat) (rows : List Byte) (g : Gfx) :
    (drawSprite x0 y0 rows g).2 = true ↔ ∃ y x, g.at y x = true ∧ spriteBit x0 y0 rows y x = true := by
  simpa [drawSprite] using plotRows_hit x0 rows y0 (g, false)

end Sys2Proof.Machine
end

