-- ==== Sys2Proof/Laws/Encoding.lean ====
section
/-! SUPPORT. The fields of an opcode as digits of its number, of any opcode and of the packed ones, and what
follows for the decoder and the byte order. -/

namespace Sys2Proof.Laws

/-! ### The fields as digits -/

theorem opFamily_eq (op : Word) : opFamily op = op.toNat / 0x1000 := by
  have := op.isLt
  simp [opFamily, BitVec.extractLsb'_toNat, Nat.shiftRight_eq_div_pow]; omega

theorem opX_val (op : Word) : (opX op).val = op.toNat / 0x100 % 0x10 := by
  simp [opX, Nat.shiftRight_eq_div_pow]

theorem opY_val (op : Word) : (opY op).val = op.toNat / 0x10 % 0x10 := by
  simp [opY, Nat.shiftRight_eq_div_pow]

theorem opN_eq (op : Word) : opN op = op.toNat % 0x10 := by
  simp [opN, BitVec.extractLsb'_toNat]

theorem opKk_toNat (op : Word) : (opKk op).toNat = op.toNat % 0x100 := by
  simp [opKk, BitVec.extractLsb'_toNat]

theorem opNnn_toNat (op : Word) : (opNnn op).toNat = op.toNat % 0x1000 := by
  simp [opNnn, BitVec.extractLsb'_toNat]; omega

/-- No 16-bit word has a high nibble above 0xF. -/
theorem opFamily_lt (op : Word) : opFamily op < 16 := by
  have := op.isLt
  rw [opFamily_eq]; omega

theorem decodeWord_ne_noSuchFamily (op op' : Word) : decodeWord op ≠ .error (.noSuchFamily op') := by
  have h := opFamily_lt op
  unfold decodeWord
  generalize opFamily op = f at h
  interval_cases f <;> simp only [decodeFamily0, decodeFamily8, decodeFamilyE, decodeFamilyF] <;>
    first
    | (split <;> first | (split <;> simp) | simp)
    | simp

/-! ### Packed opcodes -/

section

variable {f x y n kk nnn : Nat}

theorem packXyn_toNat (hf : f < 16) (hx : x < 16) (hy : y < 16) (hn : n < 16) :
    (packXyn f x y n).toNat = f * 0x1000 + x * 0x100 + y * 0x10 + n := by
  simp [packXyn]; omega

theorem packXkk_toNat (hf : f < 16) (hx : x < 16) (hk : kk < 256) :
    (packXkk f x kk).toNat = f * 0x1000 + x * 0x100 + kk := by
  simp [packXkk]; omega

theorem packNnn_toNat (hf : f < 16) (hn : nnn < 0x1000) :
    (packNnn f nnn).toNat = f * 0x1000 + nnn := by
  simp [packNnn]; omega

end

/-- The fields of an opcode of four nibbles. -/
theorem fields_packXyn {f n : Nat} (hf : f < 16) (x y : RegIdx) (hn : n < 16) :
    opFamily (packXyn f x y n) = f ∧ opX (packXyn f x y n) = x ∧ opY (packXyn f x y n) = y ∧
      opN (packXyn f x y n) = n := by
  have h := packXyn_toNat hf x.isLt y.isLt hn
  have hx := x.isLt
  have hy := y.isLt
  refine ⟨?_, Fin.ext ?_, Fin.ext ?_, ?_⟩
  · rw [opFamily_eq]; omega
  · rw [opX_val]; omega
  · rw [opY_val]; omega
  · rw [opN_eq]; omega

/-- The fields of an opcode with a byte immediate or a byte secondary code. -/
theorem fields_packXkk {f kk : Nat} (hf : f < 16) (x : RegIdx) (hk : kk < 256) :
    opFamily (packXkk f x kk) = f ∧ opX (packXkk f x kk) = x ∧ opKk (packXkk f x kk) = BitVec.ofNat 8 kk := by
  have h := packXkk_toNat hf x.isLt hk
  have hx := x.isLt
  refine ⟨?_, Fin.ext ?_, BitVec.eq_of_toNat_eq ?_⟩
  · rw [opFamily_eq]; omega
  · rw [opX_val]; omega
  · rw [opKk_toNat, BitVec.toNat_ofNat]; omega

/-- The fields of an opcode with an address. -/
theorem fields_packNnn {f : Nat} (hf : f < 16) {nnn : Word} (hn : nnn.toNat < 0x1000) :
    opFamily (packNnn f nnn.toNat) = f ∧ opNnn (packNnn f nnn.toNat) = nnn := by
  have h := packNnn_toNat hf hn
  refine ⟨?_, BitVec.eq_of_toNat_eq ?_⟩
  · rw [opFamily_eq]; omega
  · rw [opNnn_toNat]; omega

/-- An opcode is its four nibbles. -/
theorem toNat_eq_digits (op : Word) : op.toNat =
    opFamily op * 0x1000 + (opX op).val * 0x100 + (opY op).val * 0x10 + opN op := by
  have := op.isLt
  rw [opFamily_eq, opX_val, opY_val, opN_eq]; omega

/-! ### Bytes -/

theorem bigEndian_toNat (hi lo : Byte) : (bigEndian hi lo).toNat = hi.toNat * 0x100 + lo.toNat := by
  have := lo.isLt
  simp only [bigEndian, BitVec.toNat_append]
  rw [← Nat.shiftLeft_add_eq_or_of_lt (by omega), Nat.shiftLeft_eq]

theorem bigEndian_opBytes (op : Word) : bigEndian (op.extractLsb' 8 8) (op.extractLsb' 0 8) = op := by
  have := op.isLt
  apply BitVec.eq_of_toNat_eq
  rw [bigEndian_toNat]
  simp [BitVec.extractLsb'_toNat, Nat.shiftRight_eq_div_pow]; omega

/-- Decoding the bytes of an opcode decodes the opcode. -/
theorem decode_opBytes (op : Word) (rest : List Byte) : decode (opBytes op ++ rest) =
    match decodeWord op with
    | .ok i => .ok (i, rest)
    | .error e => .error e := by
  cases h : decodeWord op <;> simp [opBytes, decode, bigEndian_opBytes, h]

end Sys2Proof.Laws
end

