-- ==== Sys2Proof/Laws/Exec.lean ====
section
/-! SUPPORT. What the shared operations of the meanings can do, and each instruction's answer as one equation per
case: later proofs cite these and unfold no meaning. -/

namespace Sys2Proof.Machine

variable (s : State)

/-! ### Fetch, stack, counting down -/

theorem fetch_eq_none : s.fetch = none ↔ 0xFFF < s.pc.toNat + 1 := by
  unfold State.fetch
  split <;> simp_all

/-- The word the fetch composes. -/
theorem fetch_word_toNat (hi lo : Byte) :
    ((hi.zeroExtend 16 <<< 8 ||| lo.zeroExtend 16 : Word)).toNat = hi.toNat * 0x100 + lo.toNat := by
  have h1 := hi.isLt
  have h2 := lo.isLt
  have e1 : (hi.zeroExtend 16 <<< 8 : Word).toNat = hi.toNat <<< 8 := by
    simp [BitVec.toNat_shiftLeft, Nat.shiftLeft_eq]; omega
  have e2 : (lo.zeroExtend 16 : Word).toNat = lo.toNat := by simp; omega
  rw [BitVec.toNat_or, e1, e2, ← Nat.shiftLeft_add_eq_or_of_lt (by omega), Nat.shiftLeft_eq]

theorem fetch_eq_some (h : s.pc.toNat + 1 ≤ 0xFFF) : s.fetch =
    some (bigEndian (s.readByte s.pc.toNat) (s.readByte (s.pc.toNat + 1))) := by
  unfold State.fetch
  rw [if_neg (by omega)]
  congr 1
  apply BitVec.eq_of_toNat_eq
  have := (s.readByte (s.pc.toNat + 1)).isLt
  rw [fetch_word_toNat, bigEndian, BitVec.toNat_append, ← Nat.shiftLeft_add_eq_or_of_lt (by omega),
    Nat.shiftLeft_eq]

theorem pc_le_of_fetch {s : State} {op : Word} (h : s.fetch = some op) : s.pc.toNat + 1 ≤ 0xFFF := by
  by_contra hc
  rw [(fetch_eq_none s).2 (by omega)] at h
  simp at h

theorem push_of_lt (a : Word) (h : s.sp.val < 16) : s.push a =
    some { s with stack := s.stack.set s.sp.val a h, sp := ⟨s.sp.val + 1, by omega⟩ } := dif_pos h

theorem push_eq_none (a : Word) : s.push a = none ↔ s.sp.val = 16 := by
  have := s.sp.isLt
  unfold State.push
  split
  · simp; omega
  · simp; omega

theorem pop_of_pos (h : 0 < s.sp.val) : s.pop =
    some (s.stack[s.sp.val - 1]'(by omega), { s with sp := ⟨s.sp.val - 1, by omega⟩ }) := dif_pos h

theorem pop_eq_none : s.pop = none ↔ s.sp.val = 0 := by
  unfold State.pop
  split
  · simp; omega
  · simp; omega

theorem countDown_toNat (b : Byte) : (countDown b).toNat = b.toNat - 1 := by
  have := b.isLt
  unfold countDown
  split
  · rw [BitVec.toNat_sub]; simp; omega
  · omega

theorem audible_iff (a : Arch) : a.audible = true ↔ 1 ≤ a.st.toNat := by
  rw [Arch.audible, bne_iff_ne, Ne, ← BitVec.toNat_inj]
  simp; omega

theorem keyOf_of_lt (b : Byte) (k : KeyIdx) (h : b.toNat = k.val) : s.keyOf b = some (s.key.get k) := by
  have hk : b.toNat < 16 := h ▸ k.isLt
  have : (⟨b.toNat, hk⟩ : Fin 16) = k := Fin.ext h
  simp [State.keyOf, hk, this]

theorem keyOf_eq_none (b : Byte) : s.keyOf b = none ↔ 16 ≤ b.toNat := by
  unfold State.keyOf
  split <;> simp_all

theorem bcdDigits_length (b : Byte) : (bcdDigits b).length = 3 := rfl

@[simp] theorem regRun_length (x : RegIdx) : (s.regRun x).length = runLength x := by
  have := x.isLt
  simp [State.regRun, runLength]

theorem regRun_getElem (x : RegIdx) (k : Nat) (h : k < (s.regRun x).length) :
    (s.regRun x)[k] = s.reg ⟨k, by have := x.isLt; rw [regRun_length] at h; simp [runLength] at h; omega⟩ := by
  simp [State.regRun, State.reg, Vector.get_eq_getElem]

theorem storeAtI_of_inside {bytes : List Byte} (h : s.i.toNat + bytes.length ≤ memSize) :
    storeAtI bytes s = (s.writeBytes (s.addrAt 0) bytes).jump (s.pc + 2) := by
  have : lowestOutside (s.addrAt 0) bytes.length = none := lowestOutside_eq_none.2 (.inr h)
  simp [storeAtI, this]

theorem storeAtI_of_outside {bytes : List Byte} (h0 : 0 < bytes.length) (h : memSize < s.i.toNat + bytes.length) :
    storeAtI bytes s = raiseFault (.memoryOutOfBounds (max s.i.toNat memSize)) s := by
  have : lowestOutside (s.addrAt 0) bytes.length = some (max s.i.toNat memSize) :=
    lowestOutside_eq_some.2 ⟨h0, h, rfl⟩
  simp [storeAtI, this]

/-! ### Ending a cycle -/

theorem endCycle_of_running (h : s.runState = .running) : endCycle s = s.tick.answer .completed := by
  simp [endCycle, h]

theorem endCycle_of_awaiting {x : RegIdx} (h : s.runState = .awaitingKey x) : endCycle s = s.answer .suspended := by
  simp [endCycle, h]

theorem endCycle_of_faulted {r : FaultRecord} (h : s.runState = .faulted r) :
    endCycle s = s.answer (.faulted r) := by
  simp [endCycle, h]

/-- However a cycle ends, it leaves the run state as the instruction left it. -/
@[simp] theorem endCycle_runState : (endCycle s).runState = s.runState := by
  cases h : s.runState <;> simp [endCycle, h]

@[simp] theorem endCycle_mem : (endCycle s).mem = s.mem := by
  cases h : s.runState <;> simp [endCycle, h]

@[simp] theorem endCycle_params : (endCycle s).params = s.params := by
  cases h : s.runState <;> simp [endCycle, h]

@[simp] theorem endCycle_draws : (endCycle s).draws = s.draws := by
  cases h : s.runState <;> simp [endCycle, h]

@[simp] theorem endCycle_key : (endCycle s).key = s.key := by
  cases h : s.runState <;> simp [endCycle, h]

@[simp] theorem endCycle_gfx : (endCycle s).gfx = s.gfx := by
  cases h : s.runState <;> simp [endCycle, h]

@[simp] theorem endCycle_dirty : (endCycle s).dirty = s.dirty := by
  cases h : s.runState <;> simp [endCycle, h]

@[simp] theorem endCycle_sp : (endCycle s).sp = s.sp := by
  cases h : s.runState <;> simp [endCycle, h]

@[simp] theorem endCycle_stack : (endCycle s).stack = s.stack := by
  cases h : s.runState <;> simp [endCycle, h]

@[simp] theorem endCycle_pc : (endCycle s).pc = s.pc := by
  cases h : s.runState <;> simp [endCycle, h]

@[simp] theorem endCycle_started : (endCycle s).started = s.started := by
  cases h : s.runState <;> simp [endCycle, h]

@[simp] theorem endCycle_report : (endCycle s).report = s.report := by
  cases h : s.runState <;> simp [endCycle, h]

@[simp] theorem endCycle_fetch : (endCycle s).fetch = s.fetch := by
  cases h : s.runState <;> simp [endCycle, h]

@[simp] theorem endCycle_v : (endCycle s).v = s.v := by
  cases h : s.runState <;> simp [endCycle, h]

@[simp] theorem endCycle_i : (endCycle s).i = s.i := by
  cases h : s.runState <;> simp [endCycle, h]

@[simp] theorem endCycle_pending : (endCycle s).pending = s.pending := by
  cases h : s.runState <;> simp [endCycle, h]

/-- A completed cycle has ticked the timers. -/
theorem endCycle_timers_of_running (h : s.runState = .running) :
    (endCycle s).dt = countDown s.dt ∧ (endCycle s).st = countDown s.st := by
  rw [endCycle_of_running s h]; exact ⟨rfl, rfl⟩

/-- A cycle that suspends or faults has not. -/
theorem endCycle_timers_of_not_running (h : s.runState ≠ .running) :
    (endCycle s).dt = s.dt ∧ (endCycle s).st = s.st := by
  cases h' : s.runState
  · exact absurd h' h
  · rw [endCycle_of_awaiting s h']; exact ⟨rfl, rfl⟩
  · rw [endCycle_of_faulted s h']; exact ⟨rfl, rfl⟩

/-! ### Each instruction's answer -/

section

variable (x y : RegIdx) (kk : Byte) (nnn : Word) (n : Nat)

theorem exec_jp : exec (.jp nnn) s = .next (s.jump nnn) := rfl
theorem exec_jpV0 : exec (.jpV0 nnn) s = .next (s.jump ((s.reg 0).zeroExtend 16 + nnn)) := rfl

theorem exec_call_of_lt (h : s.sp.val < 16) : exec (.call nnn) s =
    .next { s with stack := s.stack.set s.sp.val s.pc h, sp := ⟨s.sp.val + 1, by omega⟩, pc := nnn } := by
  simp [exec, execCall, push_of_lt s s.pc h, State.jump]

theorem exec_call_of_full (h : s.sp.val = 16) : exec (.call nnn) s = .next (raiseFault .stackOverflow s) := by
  simp [exec, execCall, (push_eq_none s s.pc).2 h]

theorem exec_ret_of_pos (h : 0 < s.sp.val) : exec .ret s =
    .next { s with sp := ⟨s.sp.val - 1, by omega⟩, pc := s.stack[s.sp.val - 1]'(by omega) + 2 } := by
  simp [exec, execRet, pop_of_pos s h, State.jump]

theorem exec_ret_of_empty (h : s.sp.val = 0) : exec .ret s = .next (raiseFault .stackUnderflow s) := by
  simp [exec, execRet, (pop_eq_none s).2 h]

theorem exec_seImm : exec (.seImm x kk) s = .next (s.skipIf (s.reg x == kk)) := rfl
theorem exec_sneImm : exec (.sneImm x kk) s = .next (s.skipIf (s.reg x != kk)) := rfl
theorem exec_seReg : exec (.seReg x y n) s = .next (s.skipIf (s.reg x == s.reg y)) := rfl
theorem exec_sneReg : exec (.sneReg x y n) s = .next (s.skipIf (s.reg x != s.reg y)) := rfl

theorem exec_ldImm : exec (.ldImm x kk) s = .next (s.setReg x kk).advance := rfl
theorem exec_addImm : exec (.addImm x kk) s = .next (s.setReg x (s.reg x + kk)).advance := rfl
theorem exec_ldReg : exec (.ldReg x y) s = .next (s.setReg x (s.reg y)).advance := rfl
theorem exec_orReg : exec (.orReg x y) s = .next (s.setReg x (s.reg x ||| s.reg y)).advance := rfl
theorem exec_andReg : exec (.andReg x y) s = .next (s.setReg x (s.reg x &&& s.reg y)).advance := rfl
theorem exec_xorReg : exec (.xorReg x y) s = .next (s.setReg x (s.reg x ^^^ s.reg y)).advance := rfl

theorem exec_addReg : exec (.addReg x y) s =
    .next (s.setRegFlag x (s.reg x + s.reg y) (carryFlag (s.reg x) (s.reg y))).advance := rfl
theorem exec_subReg : exec (.subReg x y) s =
    .next (s.setRegFlag x (s.reg x - s.reg y) (noBorrowFlag (s.reg x) (s.reg y))).advance := rfl
theorem exec_subnReg : exec (.subnReg x y) s =
    .next (s.setRegFlag x (s.reg y - s.reg x) (noBorrowFlag (s.reg y) (s.reg x))).advance := rfl
theorem exec_shr : exec (.shr x y) s =
    .next (s.setRegFlag x (s.reg x >>> 1) (shiftedOutRight (s.reg x))).advance := rfl
theorem exec_shl : exec (.shl x y) s =
    .next (s.setRegFlag x (s.reg x <<< 1) (shiftedOutLeft (s.reg x))).advance := rfl

theorem exec_rnd : exec (.rnd x kk) s =
    .next (s.takeDraw.setReg x (kk &&& Config.randomByte s.draws)).advance := rfl

/-- The state a draw that does not fault leaves. -/
def drawnState : State :=
  let drawn := drawSprite (s.reg x).toNat (s.reg y).toNat (s.readBytes (s.addrAt 0) n) s.gfx
  ((s.setScreen drawn.1).setReg vf (collisionFlag drawn.2)).advance

theorem spriteBit_readBytes (Y : Fin 32) (X : Fin 64) :
    spriteBit (s.reg x).toNat (s.reg y).toNat (s.readBytes (s.addrAt 0) n) Y X = true ↔
      spriteDraws s x y n Y X := by
  unfold spriteBit spriteDraws
  constructor
  · intro h
    split at h
    · rename_i hc
      refine ⟨Y - (s.reg y).toNat, X - (s.reg x).toNat, ?_⟩
      by_cases hr : Y.val - (s.reg y).toNat < n
      · simp [State.readBytes, hr] at h
        exact ⟨hr, by omega, by omega, by omega, h⟩
      · simp [State.readBytes, hr] at h
    · simp at h
  · rintro ⟨r, c, hr, hc, hY, hX, hb⟩
    have e1 : Y.val - (s.reg y).toNat = r := by omega
    have e2 : X.val - (s.reg x).toNat = c := by omega
    rw [if_pos (by omega), e1, e2]
    simpa [State.readBytes, State.addrAt, hr] using hb

/-- A cell is flipped iff the sprite draws it. -/
theorem drawnState_cell (Y : Fin 32) (X : Fin 64) :
    (spriteDraws s x y n Y X → (drawnState s x y n).cell Y X = !(s.cell Y X)) ∧
    (¬ spriteDraws s x y n Y X → (drawnState s x y n).cell Y X = s.cell Y X) := by
  have h : (drawnState s x y n).cell Y X = (s.cell Y X ^^
      spriteBit (s.reg x).toNat (s.reg y).toNat (s.readBytes (s.addrAt 0) n) Y X) := drawSprite_at ..
  constructor <;> intro hd
  · rw [h, (spriteBit_readBytes s x y n Y X).2 hd, Bool.xor_true]
  · rw [h, Bool.eq_false_iff.2 (fun e => hd ((spriteBit_readBytes s x y n Y X).1 e)), Bool.xor_false]

/-- VF is 1 iff the sprite draws a set cell, else 0. -/
theorem drawnState_vf :
    ((∃ Y X, spriteDraws s x y n Y X ∧ s.cell Y X = true) → (drawnState s x y n).reg vf = 1) ∧
    ((¬ ∃ Y X, spriteDraws s x y n Y X ∧ s.cell Y X = true) → (drawnState s x y n).reg vf = 0) := by
  have h : (drawnState s x y n).reg vf = collisionFlag
      (drawSprite (s.reg x).toNat (s.reg y).toNat (s.readBytes (s.addrAt 0) n) s.gfx).2 := by
    simp [drawnState]
  have hit := drawSprite_hit (s.reg x).toNat (s.reg y).toNat (s.readBytes (s.addrAt 0) n) s.gfx
  simp only [spriteBit_readBytes] at hit
  constructor <;> intro hd
  · obtain ⟨Y, X, h1, h2⟩ := hd
    rw [h, hit.2 ⟨Y, X, h2, h1⟩]; rfl
  · have : (drawSprite (s.reg x).toNat (s.reg y).toNat (s.readBytes (s.addrAt 0) n) s.gfx).2 = false :=
      Bool.eq_false_iff.2 fun e => hd (by obtain ⟨Y, X, h2, h1⟩ := hit.1 e; exact ⟨Y, X, h1, h2⟩)
    rw [h, this]; rfl

theorem exec_drw_of_inside (h : n = 0 ∨ s.i.toNat + n ≤ memSize) :
    exec (.drw x y n) s = .next (drawnState s x y n) := by
  have : lowestOutside (s.addrAt 0) n = none := lowestOutside_eq_none.2 h
  simp [exec, execDrw, this, drawnState]

theorem exec_drw_of_outside (h0 : 0 < n) (h : memSize < s.i.toNat + n) :
    exec (.drw x y n) s = .next (raiseFault (.memoryOutOfBounds (max s.i.toNat memSize)) s) := by
  have : lowestOutside (s.addrAt 0) n = some (max s.i.toNat memSize) := lowestOutside_eq_some.2 ⟨h0, h, rfl⟩
  simp [exec, execDrw, this]

theorem exec_cls : exec .cls s =
    .next (s.setScreen (Vector.replicate 32 (Vector.replicate 64 false))).advance := rfl

theorem exec_ldVxDt : exec (.ldVxDt x) s = .next (s.setReg x s.dt).advance := rfl
theorem exec_ldDtVx : exec (.ldDtVx x) s = .next (s.setDt (s.reg x)).advance := rfl
theorem exec_ldStVx : exec (.ldStVx x) s = .next (s.setSt (s.reg x)).advance := rfl
theorem exec_ldI : exec (.ldI nnn) s = .next (s.setI nnn).advance := rfl
theorem exec_addIVx : exec (.addIVx x) s =
    .next (s.setI (s.i + (s.reg x).zeroExtend 16)).advance := rfl

theorem exec_ldFVx_of_digit (h : (s.reg x).toNat ≤ 0xF) : exec (.ldFVx x) s =
    .next (s.setI ((s.reg x).zeroExtend 16 * 5)).advance := if_neg (by omega)

theorem exec_ldFVx_of_large (h : 0xF < (s.reg x).toNat) : exec (.ldFVx x) s =
    .next (raiseFault (.fontDigitOutOfRange (s.reg x)) s) := if_pos h

theorem exec_ldBVx : exec (.ldBVx x) s = .next (storeAtI (bcdDigits (s.reg x)) s) := rfl
theorem exec_storeRegs : exec (.storeRegs x) s = .next (storeAtI (s.regRun x) s) := rfl

theorem exec_loadRegs_of_inside (h : s.i.toNat + runLength x ≤ memSize) :
    exec (.loadRegs x) s = .next (s.loadRegRun x).advance := by
  have : lowestOutside (s.addrAt 0) (runLength x) = none := lowestOutside_eq_none.2 (.inr h)
  simp [exec, execLoadRegs, this]

theorem exec_loadRegs_of_outside (h : memSize < s.i.toNat + runLength x) : exec (.loadRegs x) s =
    .next (raiseFault (.memoryOutOfBounds (max s.i.toNat memSize)) s) := by
  have : lowestOutside (s.addrAt 0) (runLength x) = some (max s.i.toNat memSize) :=
    lowestOutside_eq_some.2 ⟨Nat.succ_pos _, h, rfl⟩
  simp [exec, execLoadRegs, this]

theorem exec_skp_of_key (k : KeyIdx) (h : (s.reg x).toNat = k.val) :
    exec (.skp x) s = .next (s.skipIf (s.key.get k)) := by
  simp [exec, execSkp, keyOf_of_lt s _ k h]

theorem exec_skp_of_large (h : 16 ≤ (s.reg x).toNat) : exec (.skp x) s =
    .next (raiseFault (.keyIndexOutOfRange (s.reg x)) s) := by
  simp [exec, execSkp, (keyOf_eq_none s _).2 h]

theorem exec_sknp_of_key (k : KeyIdx) (h : (s.reg x).toNat = k.val) :
    exec (.sknp x) s = .next (s.skipIf (!(s.key.get k))) := by
  simp [exec, execSknp, keyOf_of_lt s _ k h]

theorem exec_sknp_of_large (h : 16 ≤ (s.reg x).toNat) : exec (.sknp x) s =
    .next (raiseFault (.keyIndexOutOfRange (s.reg x)) s) := by
  simp [exec, execSknp, (keyOf_eq_none s _).2 h]

theorem exec_ldVxK : exec (.ldVxK x) s = .next (s.setRunState (.awaitingKey x)) := rfl

end

end Sys2Proof.Machine
end

