-- ==== Sys2Proof/Laws/PerInstr.lean ====
section
/-! SUPPORT. One family of lemmas with a case per instruction: the opcode of a well-formed instruction matches its
row of spec/opcode_table.json. -/

namespace Sys2Proof.Laws

/-! ### Masked opcodes as fields -/

theorem and_family (op : Word) : op &&& 0xF000 = BitVec.ofNat 16 (opFamily op * 0x1000) := by
  have h : BitVec.ofNat 16 (opFamily op * 0x1000) = (op.extractLsb' 12 4).zeroExtend 16 <<< 12 := by
    rw [← BitVec.toNat_inj]
    simp [opFamily, Nat.shiftLeft_eq]
  rw [h]
  ext i hi
  interval_cases i <;> simp

/-- A mask of the family bits and of bits below them splits into the two. -/
theorem and_family_add (op m : Word) (h : m &&& 0xF000 = 0) :
    op &&& (0xF000 + m) = (op &&& 0xF000) + (op &&& m) := by
  have h1 : (0xF000 : Word) &&& m = 0 := by rw [BitVec.and_comm]; exact h
  have h2 : (op &&& 0xF000) &&& (op &&& m) = 0 := by
    have : (op &&& 0xF000) &&& (op &&& m) = op &&& (0xF000 &&& m) := by
      ext i hi
      simp only [BitVec.getElem_and]
      cases op[i] <;> simp
    rw [this, h1]
    exact BitVec.and_zero
  rw [BitVec.add_eq_or_of_and_eq_zero _ _ h1, BitVec.add_eq_or_of_and_eq_zero _ _ h2]
  ext i hi
  simp only [BitVec.getElem_and, BitVec.getElem_or, Bool.and_or_distrib_left]

theorem and_family_low (op : Word) : op &&& 0xF00F = BitVec.ofNat 16 (opFamily op * 0x1000 + opN op) := by
  have h : op &&& 0x000F = BitVec.ofNat 16 (opN op) := by
    rw [← BitVec.toNat_inj, BitVec.toNat_and, opN_eq]
    exact (Nat.and_two_pow_sub_one_eq_mod op.toNat 4).trans (by simp; omega)
  rw [show (0xF00F : Word) = 0xF000 + 0x000F from rfl, and_family_add op _ rfl, and_family, h, BitVec.ofNat_add]

theorem and_family_byte (op : Word) :
    op &&& 0xF0FF = BitVec.ofNat 16 (opFamily op * 0x1000 + (opKk op).toNat) := by
  have h : op &&& 0x00FF = BitVec.ofNat 16 (opKk op).toNat := by
    rw [← BitVec.toNat_inj, BitVec.toNat_and, opKk_toNat]
    exact (Nat.and_two_pow_sub_one_eq_mod op.toNat 8).trans (by simp; omega)
  rw [show (0xF0FF : Word) = 0xF000 + 0x00FF from rfl, and_family_add op _ rfl, and_family, h, BitVec.ofNat_add]

section

variable {f n kk : Nat} {x y : RegIdx} {nnn m : Word}

theorem match_nnn (hf : f < 16) (hn : addressFits nnn = true) (hm : BitVec.ofNat 16 (f * 0x1000) = m) :
    packNnn f nnn.toNat &&& 0xF000 = m := by
  rw [and_family, (fields_packNnn hf (by simpa [addressFits] using hn)).1, hm]

theorem match_family (hf : f < 16) (hk : kk < 256) (hm : BitVec.ofNat 16 (f * 0x1000) = m) :
    packXkk f x kk &&& 0xF000 = m := by
  rw [and_family, (fields_packXkk hf x hk).1, hm]

theorem match_xyn (hf : f < 16) (hn : nibbleFits n = true) (hm : BitVec.ofNat 16 (f * 0x1000) = m) :
    packXyn f x y n &&& 0xF000 = m := by
  rw [and_family, (fields_packXyn hf x y (by simpa [nibbleFits] using hn)).1, hm]

theorem match_low (hf : f < 16) (hn : n < 16) (hm : BitVec.ofNat 16 (f * 0x1000 + n) = m) :
    packXyn f x y n &&& 0xF00F = m := by
  have h := fields_packXyn hf x y hn
  rw [and_family_low, h.1, h.2.2.2, hm]

theorem match_byte (hf : f < 16) (hk : kk < 256) (hm : BitVec.ofNat 16 (f * 0x1000 + kk) = m) :
    packXkk f x kk &&& 0xF0FF = m := by
  have h := fields_packXkk hf x hk
  rw [and_family_byte, h.1, h.2.2, BitVec.toNat_ofNat, Nat.mod_eq_of_lt (by omega), hm]

end

/-- The mask and the match of an instruction's row in spec/opcode_table.json. -/
def tableRow : Instr → Word × Word
  | .cls => (0xFFFF, 0x00E0)
  | .ret => (0xFFFF, 0x00EE)
  | .jp _ => (0xF000, 0x1000)
  | .call _ => (0xF000, 0x2000)
  | .seImm _ _ => (0xF000, 0x3000)
  | .sneImm _ _ => (0xF000, 0x4000)
  | .seReg _ _ _ => (0xF000, 0x5000)
  | .ldImm _ _ => (0xF000, 0x6000)
  | .addImm _ _ => (0xF000, 0x7000)
  | .ldReg _ _ => (0xF00F, 0x8000)
  | .orReg _ _ => (0xF00F, 0x8001)
  | .andReg _ _ => (0xF00F, 0x8002)
  | .xorReg _ _ => (0xF00F, 0x8003)
  | .addReg _ _ => (0xF00F, 0x8004)
  | .subReg _ _ => (0xF00F, 0x8005)
  | .shr _ _ => (0xF00F, 0x8006)
  | .subnReg _ _ => (0xF00F, 0x8007)
  | .shl _ _ => (0xF00F, 0x800E)
  | .sneReg _ _ _ => (0xF000, 0x9000)
  | .ldI _ => (0xF000, 0xA000)
  | .jpV0 _ => (0xF000, 0xB000)
  | .rnd _ _ => (0xF000, 0xC000)
  | .drw _ _ _ => (0xF000, 0xD000)
  | .skp _ => (0xF0FF, 0xE09E)
  | .sknp _ => (0xF0FF, 0xE0A1)
  | .ldVxDt _ => (0xF0FF, 0xF007)
  | .ldVxK _ => (0xF0FF, 0xF00A)
  | .ldDtVx _ => (0xF0FF, 0xF015)
  | .ldStVx _ => (0xF0FF, 0xF018)
  | .addIVx _ => (0xF0FF, 0xF01E)
  | .ldFVx _ => (0xF0FF, 0xF029)
  | .ldBVx _ => (0xF0FF, 0xF033)
  | .storeRegs _ => (0xF0FF, 0xF055)
  | .loadRegs _ => (0xF0FF, 0xF065)

namespace TablePattern

/-- The opcode, masked as the instruction's row says, is the row's match. -/
def Statement (i : Instr) : Prop := i.wellFormed = true → encode i &&& (tableRow i).1 = (tableRow i).2

theorem cls : Statement .cls := fun _ => rfl

theorem ret : Statement .ret := fun _ => rfl

theorem jp (nnn : Word) : Statement (.jp nnn) := fun h => match_nnn (by decide) h rfl

theorem call (nnn : Word) : Statement (.call nnn) := fun h => match_nnn (by decide) h rfl

theorem seImm (x : RegIdx) (kk : Byte) : Statement (.seImm x kk) := fun _ => match_family (by decide) (kk := kk.toNat) kk.isLt rfl

theorem sneImm (x : RegIdx) (kk : Byte) : Statement (.sneImm x kk) := fun _ => match_family (by decide) (kk := kk.toNat) kk.isLt rfl

theorem seReg (x y : RegIdx) (n : Nat) : Statement (.seReg x y n) := fun h => match_xyn (by decide) h rfl

theorem ldImm (x : RegIdx) (kk : Byte) : Statement (.ldImm x kk) := fun _ => match_family (by decide) (kk := kk.toNat) kk.isLt rfl

theorem addImm (x : RegIdx) (kk : Byte) : Statement (.addImm x kk) := fun _ => match_family (by decide) (kk := kk.toNat) kk.isLt rfl

theorem ldReg (x y : RegIdx) : Statement (.ldReg x y) := fun _ => match_low (by decide) (by decide) rfl

theorem orReg (x y : RegIdx) : Statement (.orReg x y) := fun _ => match_low (by decide) (by decide) rfl

theorem andReg (x y : RegIdx) : Statement (.andReg x y) := fun _ => match_low (by decide) (by decide) rfl

theorem xorReg (x y : RegIdx) : Statement (.xorReg x y) := fun _ => match_low (by decide) (by decide) rfl

theorem addReg (x y : RegIdx) : Statement (.addReg x y) := fun _ => match_low (by decide) (by decide) rfl

theorem subReg (x y : RegIdx) : Statement (.subReg x y) := fun _ => match_low (by decide) (by decide) rfl

theorem shr (x y : RegIdx) : Statement (.shr x y) := fun _ => match_low (by decide) (by decide) rfl

theorem subnReg (x y : RegIdx) : Statement (.subnReg x y) := fun _ => match_low (by decide) (by decide) rfl

theorem shl (x y : RegIdx) : Statement (.shl x y) := fun _ => match_low (by decide) (by decide) rfl

theorem sneReg (x y : RegIdx) (n : Nat) : Statement (.sneReg x y n) := fun h => match_xyn (by decide) h rfl

theorem ldI (nnn : Word) : Statement (.ldI nnn) := fun h => match_nnn (by decide) h rfl

theorem jpV0 (nnn : Word) : Statement (.jpV0 nnn) := fun h => match_nnn (by decide) h rfl

theorem rnd (x : RegIdx) (kk : Byte) : Statement (.rnd x kk) := fun _ => match_family (by decide) (kk := kk.toNat) kk.isLt rfl

theorem drw (x y : RegIdx) (n : Nat) : Statement (.drw x y n) := fun h => match_xyn (by decide) h rfl

theorem skp (x : RegIdx) : Statement (.skp x) := fun _ => match_byte (by decide) (by decide) rfl

theorem sknp (x : RegIdx) : Statement (.sknp x) := fun _ => match_byte (by decide) (by decide) rfl

theorem ldVxDt (x : RegIdx) : Statement (.ldVxDt x) := fun _ => match_byte (by decide) (by decide) rfl

theorem ldVxK (x : RegIdx) : Statement (.ldVxK x) := fun _ => match_byte (by decide) (by decide) rfl

theorem ldDtVx (x : RegIdx) : Statement (.ldDtVx x) := fun _ => match_byte (by decide) (by decide) rfl

theorem ldStVx (x : RegIdx) : Statement (.ldStVx x) := fun _ => match_byte (by decide) (by decide) rfl

theorem addIVx (x : RegIdx) : Statement (.addIVx x) := fun _ => match_byte (by decide) (by decide) rfl

theorem ldFVx (x : RegIdx) : Statement (.ldFVx x) := fun _ => match_byte (by decide) (by decide) rfl

theorem ldBVx (x : RegIdx) : Statement (.ldBVx x) := fun _ => match_byte (by decide) (by decide) rfl

theorem storeRegs (x : RegIdx) : Statement (.storeRegs x) := fun _ => match_byte (by decide) (by decide) rfl

theorem loadRegs (x : RegIdx) : Statement (.loadRegs x) := fun _ => match_byte (by decide) (by decide) rfl

end TablePattern

end Sys2Proof.Laws
end

