-- ==== Sys2Proof/Laws/Step.lean ====
section
/-! SUPPORT. What an instruction can do, said once, and then what a cycle, a transaction and a step can do: rules of
the whole machine are derived from these inversions. -/

namespace Sys2Proof.Machine

/-- What `DT` is after an instruction and before the tick. -/
def dtAfter (i : Instr) (s : State) : Byte :=
  match i with
  | .ldDtVx x => s.reg x
  | _ => s.dt

/-- What `ST` is after an instruction and before the tick. -/
def stAfter (i : Instr) (s : State) : Byte :=
  match i with
  | .ldStVx x => s.reg x
  | _ => s.st

/-- How many draws an instruction takes. -/
def drawCount : Instr → Nat
  | .rnd _ _ => 1
  | _ => 0

/-- What an instruction that neither faults nor waits does to the state. -/
structure Completes (i : Instr) (s t : State) : Prop where
  runState : t.runState = s.runState
  key : t.key = s.key
  started : t.started = s.started
  params : t.params = s.params
  pending : t.pending = s.pending
  reply : t.reply = s.reply
  report : t.report = s.report
  mem : t.mem = s.mem ∨ ∃ x, i = .ldBVx x ∨ i = .storeRegs x
  memWf : s.mem.wf s.params → t.mem.wf t.params
  dt : t.dt = dtAfter i s
  st : t.st = stAfter i s
  stack : (t.sp = s.sp ∧ t.stack = s.stack) ∨
    (∃ nnn, i = .call nnn ∧ t.sp.val = s.sp.val + 1 ∧ ∀ j, t.stack.get j = s.stack.get j ∨ t.stack.get j = s.pc) ∨
    (i = .ret ∧ t.sp.val + 1 = s.sp.val ∧ t.stack = s.stack)
  screen : (t.gfx = s.gfx ∧ t.dirty = s.dirty) ∨ (t.dirty = true ∧ (i = .cls ∨ ∃ x y n, i = .drw x y n))
  draws : t.draws = s.draws + drawCount i
  pcLow : i.wellFormed = true → s.pc.toNat ≤ 0xFFE → (∀ j : Fin 16, (s.stack.get j).toNat ≤ 0xFFE) →
    t.pc.toNat ≤ 0x10FE

/-- An instruction completes, or waits for a key, or faults: in the last two cases it writes the run state
only. -/
def ExecCases (i : Instr) (s : State) : Prop :=
  (∃ t, exec i s = .next t ∧ Completes i s t) ∨
  (∃ x, i = .ldVxK x ∧ exec i s = .next (s.setRunState (.awaitingKey x))) ∨
  (∃ c, exec i s = .next (raiseFault c s))

section

variable {i : Instr} {s : State}

theorem ExecCases.completes {t : State} (h : exec i s = .next t) (hc : Completes i s t) : ExecCases i s :=
  .inl ⟨t, h, hc⟩

theorem ExecCases.faults {c : Cause} (h : exec i s = .next (raiseFault c s)) : ExecCases i s := .inr (.inr ⟨c, h⟩)

theorem advance_low (h : s.pc.toNat ≤ 0xFFE) : (s.pc + 2).toNat ≤ 0x10FE := by
  simp [BitVec.toNat_add]; omega

theorem skip_low (b : Bool) (h : s.pc.toNat ≤ 0xFFE) : (s.pc + if b then 4 else 2).toNat ≤ 0x10FE := by
  cases b <;> simp [BitVec.toNat_add] <;> omega

/-- An instruction that writes registers, `I` and `pc` only. -/
theorem completes_plain (v : Vector Byte 16) (a p : Word) (hd : dtAfter i s = s.dt) (hs : stAfter i s = s.st)
    (hr : drawCount i = 0) (hp : i.wellFormed = true → s.pc.toNat ≤ 0xFFE → p.toNat ≤ 0x10FE) :
    Completes i s { s with v := v, i := a, pc := p } where
  runState := rfl
  key := rfl
  started := rfl
  params := rfl
  pending := rfl
  reply := rfl
  report := rfl
  mem := .inl rfl
  memWf := id
  dt := hd.symm
  st := hs.symm
  stack := .inl ⟨rfl, rfl⟩
  screen := .inl ⟨rfl, rfl⟩
  draws := by rw [hr]; rfl
  pcLow := fun hw h _ => hp hw h

/-- Its exec, when it also advances `pc` past itself. -/
theorem execCases_advance {v : Vector Byte 16} {a : Word} (h : exec i s = .next { s with v := v, i := a, pc := s.pc + 2 })
    (hd : dtAfter i s = s.dt) (hs : stAfter i s = s.st) (hr : drawCount i = 0) : ExecCases i s :=
  .completes h (completes_plain v a _ hd hs hr fun _ => advance_low)

/-- Its exec, when it skips or not. -/
theorem execCases_skip {b : Bool} (h : exec i s = .next (s.skipIf b))
    (hd : dtAfter i s = s.dt) (hs : stAfter i s = s.st) (hr : drawCount i = 0) : ExecCases i s :=
  .completes h (completes_plain s.v s.i _ hd hs hr fun _ => skip_low b)

/-- Its exec, when it stores bytes from `I` on. -/
theorem execCases_store {bytes : List Byte} (h0 : 0 < bytes.length) (hi : ∃ x, i = .ldBVx x ∨ i = .storeRegs x)
    (he : exec i s = .next (storeAtI bytes s)) : ExecCases i s := by
  by_cases hb : s.i.toNat + bytes.length ≤ memSize
  · rw [storeAtI_of_inside s hb] at he
    refine .completes he ⟨by simp, by simp, by simp, by simp, by simp, by simp, by simp, .inr hi, fun h =>
      writeBytes_wf bytes s _ h hb, ?_, ?_, .inl ⟨by simp, by simp⟩, .inl ⟨by simp, by simp⟩, ?_,
      fun _ h _ => advance_low h⟩ <;> (obtain ⟨x, rfl | rfl⟩ := hi <;> simp [dtAfter, stAfter, drawCount])
  · rw [storeAtI_of_outside s h0 (by omega)] at he
    exact .faults he

end

section

variable (s : State) (x y : RegIdx) (n : Nat) (nnn : Word)

theorem execCases_cls : ExecCases .cls s :=
  .completes (exec_cls s) ⟨rfl, rfl, rfl, rfl, rfl, rfl, rfl, .inl rfl, id, rfl, rfl, .inl ⟨rfl, rfl⟩,
    .inr ⟨rfl, .inl rfl⟩, rfl, fun _ h _ => advance_low h⟩

theorem execCases_drw : ExecCases (.drw x y n) s := by
  by_cases h : n = 0 ∨ s.i.toNat + n ≤ memSize
  · exact .completes (exec_drw_of_inside s x y n h) ⟨rfl, rfl, rfl, rfl, rfl, rfl, rfl, .inl rfl, id, rfl, rfl,
      .inl ⟨rfl, rfl⟩, .inr ⟨rfl, .inr ⟨x, y, n, rfl⟩⟩, rfl, fun _ h _ => advance_low h⟩
  · exact .faults (exec_drw_of_outside s x y n (by omega) (by omega))

theorem execCases_ret : ExecCases .ret s := by
  by_cases h : s.sp.val = 0
  · exact .faults (exec_ret_of_empty s h)
  · refine .completes (exec_ret_of_pos s (by omega)) ⟨rfl, rfl, rfl, rfl, rfl, rfl, rfl, .inl rfl, id, rfl, rfl,
      .inr (.inr ⟨rfl, by simp; omega, rfl⟩), .inl ⟨rfl, rfl⟩, rfl, fun _ _ hs => ?_⟩
    have := hs ⟨s.sp.val - 1, by omega⟩
    simp [Vector.get_eq_getElem] at this
    simp [BitVec.toNat_add]; omega

theorem execCases_call : ExecCases (.call nnn) s := by
  by_cases h : s.sp.val < 16
  · refine .completes (exec_call_of_lt s nnn h) ⟨rfl, rfl, rfl, rfl, rfl, rfl, rfl, .inl rfl, id, rfl, rfl,
      .inr (.inl ⟨nnn, rfl, rfl, fun j => ?_⟩), .inl ⟨rfl, rfl⟩, rfl, fun hw _ _ => ?_⟩
    · by_cases hj : s.sp.val = j.val <;> simp [Vector.get_eq_getElem, hj]
    · simp [Instr.wellFormed, addressFits] at hw
      simp; omega
  · exact .faults (exec_call_of_full s nnn (by omega))

theorem execCases_jp : ExecCases (.jp nnn) s :=
  .completes (exec_jp s nnn) (completes_plain s.v s.i nnn rfl rfl rfl fun hw _ => by
    simp [Instr.wellFormed, addressFits] at hw
    omega)

theorem execCases_jpV0 : ExecCases (.jpV0 nnn) s :=
  .completes (exec_jpV0 s nnn) (completes_plain s.v s.i _ rfl rfl rfl fun hw _ => by
    have := (s.reg 0).isLt
    simp [Instr.wellFormed, addressFits] at hw
    simp; omega)

theorem execCases_skp : ExecCases (.skp x) s := by
  by_cases h : (s.reg x).toNat < 16
  · exact execCases_skip (exec_skp_of_key s x ⟨_, h⟩ rfl) rfl rfl rfl
  · exact .faults (exec_skp_of_large s x (by omega))

theorem execCases_sknp : ExecCases (.sknp x) s := by
  by_cases h : (s.reg x).toNat < 16
  · exact execCases_skip (exec_sknp_of_key s x ⟨_, h⟩ rfl) rfl rfl rfl
  · exact .faults (exec_sknp_of_large s x (by omega))

theorem execCases_ldFVx : ExecCases (.ldFVx x) s := by
  by_cases h : (s.reg x).toNat ≤ 0xF
  · exact execCases_advance (v := s.v) (exec_ldFVx_of_digit s x h) rfl rfl rfl
  · exact .faults (exec_ldFVx_of_large s x (by omega))

theorem execCases_loadRegs : ExecCases (.loadRegs x) s := by
  by_cases h : s.i.toNat + runLength x ≤ memSize
  · exact execCases_advance (a := s.i) (exec_loadRegs_of_inside s x h) rfl rfl rfl
  · exact .faults (exec_loadRegs_of_outside s x (by omega))

theorem execCases_ldDtVx : ExecCases (.ldDtVx x) s :=
  .completes (exec_ldDtVx s x) ⟨rfl, rfl, rfl, rfl, rfl, rfl, rfl, .inl rfl, id, rfl, rfl, .inl ⟨rfl, rfl⟩,
    .inl ⟨rfl, rfl⟩, rfl, fun _ h _ => advance_low h⟩

theorem execCases_ldStVx : ExecCases (.ldStVx x) s :=
  .completes (exec_ldStVx s x) ⟨rfl, rfl, rfl, rfl, rfl, rfl, rfl, .inl rfl, id, rfl, rfl, .inl ⟨rfl, rfl⟩,
    .inl ⟨rfl, rfl⟩, rfl, fun _ h _ => advance_low h⟩

theorem execCases_rnd (kk : Byte) : ExecCases (.rnd x kk) s :=
  .completes (exec_rnd s x kk) ⟨rfl, rfl, rfl, rfl, rfl, rfl, rfl, .inl rfl, id, rfl, rfl, .inl ⟨rfl, rfl⟩,
    .inl ⟨rfl, rfl⟩, rfl, fun _ h _ => advance_low h⟩

end

/-- Every instruction completes, or waits for a key, or faults. -/
theorem exec_cases (i : Instr) (s : State) : ExecCases i s := by
  cases i with
  | cls => exact execCases_cls s
  | ret => exact execCases_ret s
  | jp nnn => exact execCases_jp s nnn
  | call nnn => exact execCases_call s nnn
  | seImm x kk => exact execCases_skip (exec_seImm s x kk) rfl rfl rfl
  | sneImm x kk => exact execCases_skip (exec_sneImm s x kk) rfl rfl rfl
  | seReg x y n => exact execCases_skip (exec_seReg s x y n) rfl rfl rfl
  | ldImm x kk => exact execCases_advance (a := s.i) (exec_ldImm s x kk) rfl rfl rfl
  | addImm x kk => exact execCases_advance (a := s.i) (exec_addImm s x kk) rfl rfl rfl
  | ldReg x y => exact execCases_advance (a := s.i) (exec_ldReg s x y) rfl rfl rfl
  | orReg x y => exact execCases_advance (a := s.i) (exec_orReg s x y) rfl rfl rfl
  | andReg x y => exact execCases_advance (a := s.i) (exec_andReg s x y) rfl rfl rfl
  | xorReg x y => exact execCases_advance (a := s.i) (exec_xorReg s x y) rfl rfl rfl
  | addReg x y => exact execCases_advance (a := s.i) (exec_addReg s x y) rfl rfl rfl
  | subReg x y => exact execCases_advance (a := s.i) (exec_subReg s x y) rfl rfl rfl
  | shr x y => exact execCases_advance (a := s.i) (exec_shr s x y) rfl rfl rfl
  | subnReg x y => exact execCases_advance (a := s.i) (exec_subnReg s x y) rfl rfl rfl
  | shl x y => exact execCases_advance (a := s.i) (exec_shl s x y) rfl rfl rfl
  | sneReg x y n => exact execCases_skip (exec_sneReg s x y n) rfl rfl rfl
  | ldI nnn => exact execCases_advance (v := s.v) (exec_ldI s nnn) rfl rfl rfl
  | jpV0 nnn => exact execCases_jpV0 s nnn
  | rnd x kk => exact execCases_rnd s x kk
  | drw x y n => exact execCases_drw s x y n
  | skp x => exact execCases_skp s x
  | sknp x => exact execCases_sknp s x
  | ldVxDt x => exact execCases_advance (a := s.i) (exec_ldVxDt s x) rfl rfl rfl
  | ldVxK x => exact .inr (.inl ⟨x, rfl, exec_ldVxK s x⟩)
  | ldDtVx x => exact execCases_ldDtVx s x
  | ldStVx x => exact execCases_ldStVx s x
  | addIVx x => exact execCases_advance (v := s.v) (exec_addIVx s x) rfl rfl rfl
  | ldFVx x => exact execCases_ldFVx s x
  | ldBVx x => exact execCases_store (by simp [bcdDigits]) ⟨x, .inl rfl⟩ (exec_ldBVx s x)
  | storeRegs x => exact execCases_store (by simp [runLength]) ⟨x, .inr rfl⟩ (exec_storeRegs s x)
  | loadRegs x => exact execCases_loadRegs s x

/-! ### The transactions, case by case -/

/-- A cycle of a running core faults at its fetch, or steps over or faults at an unallocated opcode, or executes
the instruction it fetched; then it ends. -/
theorem cycle_of_running (s : State) (h : s.runState = .running) :
    (s.fetch = none ∧ cycle s = .next (endCycle (raiseFault .fetchOutOfBounds s.markStarted))) ∨
    (∃ op e, s.fetch = some op ∧ decodeWord op = .error e ∧
      cycle s = .next (endCycle (execUnallocated op s.markStarted))) ∨
    (∃ op i, s.fetch = some op ∧ decodeWord op = .ok i ∧ cycle s = endOutcome (exec i s.markStarted)) := by
  have hc : cycle s = runInstruction s.markStarted := by simp [cycle, h]
  rw [hc, runInstruction, markStarted_fetch]
  cases h1 : s.fetch with
  | none => exact .inl ⟨rfl, rfl⟩
  | some op =>
    cases h2 : decodeWord op with
    | error e => exact .inr (.inl ⟨op, e, rfl, h2, by simp [h2]⟩)
    | ok i => exact .inr (.inr ⟨op, i, rfl, h2, by simp [h2]⟩)

theorem cycle_of_awaiting {s : State} {x : RegIdx} (h : s.runState = .awaitingKey x) :
    cycle s = .next (s.answer .suspended) := by
  simp [cycle, h]

theorem cycle_of_faulted {s : State} {r : FaultRecord} (h : s.runState = .faulted r) :
    cycle s = .next (s.answer (.faulted r)) := by
  simp [cycle, h]

/-- An unallocated opcode is reported and stepped over, or faults, as the parameter says. -/
theorem execUnallocated_cases (op : Word) (s : State) :
    (s.params.unknownOpcode = .skip ∧ execUnallocated op s = s.advance.emit ⟨s.pc, op⟩) ∨
    (s.params.unknownOpcode = .fault ∧ execUnallocated op s = raiseFault (.unknownOpcode op) s) := by
  cases h : s.params.unknownOpcode
  · exact .inl ⟨rfl, by simp [execUnallocated, h]⟩
  · exact .inr ⟨rfl, by simp [execUnallocated, h]⟩

/-- A key press that completes a wait. -/
theorem keyEvent_of_awaiting {s : State} {x : RegIdx} (h : s.runState = .awaitingKey x) (k : KeyIdx) :
    keyEvent k true s = (((((s.setKey k true).setReg x (BitVec.ofNat 8 k.val)).advance.setRunState
      .running).tick).answer .done) := by
  simp [keyEvent, h]

/-- Any other key event. -/
theorem keyEvent_of_not_awaiting {s : State} {k : KeyIdx} {pressed : Bool}
    (h : (∀ x, s.runState ≠ .awaitingKey x) ∨ pressed = false) :
    keyEvent k pressed s = (s.setKey k pressed).answer .done := by
  unfold keyEvent
  split
  · rename_i x hx
    rcases h with h | rfl
    · exact absurd hx (h x)
    · rfl
  · rfl
  · rfl

theorem loadProgram_of_refused {s : State} (image : List Byte) (h : s.started = true ∨ s.runState ≠ .running) :
    loadProgram image s = s.answer .refused := if_pos h

theorem loadProgram_of_tooLarge {s : State} {image : List Byte} (h1 : s.started = false) (h2 : s.runState = .running)
    (h3 : maxProgramLen < image.length) : loadProgram image s = s.answer .tooLarge := by
  simp [loadProgram, h1, h2, h3]

theorem loadProgram_of_fits {s : State} {image : List Byte} (h1 : s.started = false) (h2 : s.runState = .running)
    (h3 : image.length ≤ maxProgramLen) :
    loadProgram image s = (s.writeBytes programBase image).answer .ok := by
  simp [loadProgram, h1, h2, Nat.not_lt.2 h3]

/-! ### A step -/

theorem step_eq (s : State) : step s = transact s.nextTransaction s.takeTransaction := rfl

theorem nextTransaction_nil {s : State} (h : s.pending = []) : s.nextTransaction = .cycle := by
  simp [State.nextTransaction, h]

theorem step_of_cycle {s : State} (h : s.nextTransaction = .cycle) : step s = cycle s.takeTransaction := by
  rw [step_eq, h]; rfl

/-- Everything a step can do that issues a `Cycle` to a running core. -/
theorem step_running_cases {s t : State} (hn : s.nextTransaction = .cycle) (hr : s.runState = .running)
    (hs : step s = .next t) :
    (s.fetch = none ∧ t = endCycle (raiseFault .fetchOutOfBounds s.takeTransaction.markStarted)) ∨
    (∃ op e, s.fetch = some op ∧ decodeWord op = .error e ∧
      t = endCycle (execUnallocated op s.takeTransaction.markStarted)) ∨
    (∃ op i, s.fetch = some op ∧ decodeWord op = .ok i ∧ s.aboutToRun i ∧
      ((∃ u, t = endCycle u ∧ exec i s.takeTransaction.markStarted = .next u ∧
          Completes i s.takeTransaction.markStarted u) ∨
        (∃ x, i = .ldVxK x ∧ t = endCycle (s.takeTransaction.markStarted.setRunState (.awaitingKey x))) ∨
        (∃ c, t = endCycle (raiseFault c s.takeTransaction.markStarted)))) := by
  rw [step_of_cycle hn] at hs
  rcases cycle_of_running s.takeTransaction hr with ⟨h1, hc⟩ | ⟨op, e, h1, h2, hc⟩ | ⟨op, i, h1, h2, hc⟩
  · rw [hc] at hs
    exact .inl ⟨h1, by simpa using hs.symm⟩
  · rw [hc] at hs
    exact .inr (.inl ⟨op, e, h1, h2, by simpa using hs.symm⟩)
  · rw [hc] at hs
    refine .inr (.inr ⟨op, i, h1, h2, ⟨hn, hr, op, h1, h2⟩, ?_⟩)
    rcases exec_cases i s.takeTransaction.markStarted with ⟨u, hu, hcu⟩ | ⟨x, hx, hu⟩ | ⟨c, hu⟩
    · rw [hu] at hs
      exact .inl ⟨u, by simpa [endOutcome] using hs.symm, hu, hcu⟩
    · rw [hu] at hs
      exact .inr (.inl ⟨x, hx, by simpa [endOutcome] using hs.symm⟩)
    · rw [hu] at hs
      exact .inr (.inr ⟨c, by simpa [endOutcome] using hs.symm⟩)

/-- Everything any other step can do. -/
theorem step_other_cases {s t : State} (hs : step s = .next t)
    (h : ¬ (s.nextTransaction = .cycle ∧ s.runState = .running)) :
    (s.nextTransaction = .cycle ∧ ∃ r, t = s.takeTransaction.answer r) ∨
    (∃ k b, s.nextTransaction = .keyEvent k b ∧ t = keyEvent k b s.takeTransaction) ∨
    (∃ image, s.nextTransaction = .loadProgram image ∧ t = loadProgram image s.takeTransaction) ∨
    (s.nextTransaction = .clearDirty ∧ t = clearDirty s.takeTransaction) ∨
    (s.nextTransaction = .reset ∧ t = resetCore s.takeTransaction) := by
  cases hn : s.nextTransaction with
  | cycle =>
    rw [step_of_cycle hn] at hs
    cases hr : s.runState with
    | running => exact absurd ⟨hn, hr⟩ h
    | awaitingKey x =>
      rw [cycle_of_awaiting (by exact hr)] at hs
      exact .inl ⟨rfl, _, (Host.Outcome.next.inj hs).symm⟩
    | faulted r =>
      rw [cycle_of_faulted (by exact hr)] at hs
      exact .inl ⟨rfl, _, (Host.Outcome.next.inj hs).symm⟩
  | keyEvent k b => rw [step_eq, hn] at hs; exact .inr (.inl ⟨k, b, rfl, (Host.Outcome.next.inj hs).symm⟩)
  | loadProgram image =>
    rw [step_eq, hn] at hs; exact .inr (.inr (.inl ⟨image, rfl, (Host.Outcome.next.inj hs).symm⟩))
  | clearDirty => rw [step_eq, hn] at hs; exact .inr (.inr (.inr (.inl ⟨rfl, (Host.Outcome.next.inj hs).symm⟩)))
  | reset => rw [step_eq, hn] at hs; exact .inr (.inr (.inr (.inr ⟨rfl, (Host.Outcome.next.inj hs).symm⟩)))

/-- A key event completes a wait, or sets its key only. -/
theorem keyEvent_cases (k : KeyIdx) (b : Bool) (s : State) :
    (∃ x, s.runState = .awaitingKey x ∧ b = true ∧ keyEvent k b s =
      (((((s.setKey k true).setReg x (BitVec.ofNat 8 k.val)).advance.setRunState .running).tick).answer .done)) ∨
    (((∀ x, s.runState ≠ .awaitingKey x) ∨ b = false) ∧ keyEvent k b s = (s.setKey k b).answer .done) := by
  by_cases hc : (∀ x, s.runState ≠ .awaitingKey x) ∨ b = false
  · exact .inr ⟨hc, keyEvent_of_not_awaiting hc⟩
  · push Not at hc
    obtain ⟨⟨x, hx⟩, hb⟩ := hc
    obtain rfl : b = true := by simpa using hb
    exact .inl ⟨x, hx, rfl, keyEvent_of_awaiting hx k⟩

/-- A program load answers only, or places its image. -/
theorem loadProgram_cases (image : List Byte) (s : State) :
    (∃ r, loadProgram image s = s.answer r) ∨
    (s.started = false ∧ s.runState = .running ∧ image.length ≤ maxProgramLen ∧
      loadProgram image s = (s.writeBytes programBase image).answer .ok) := by
  by_cases h : s.started = true ∨ s.runState ≠ .running
  · exact .inl ⟨_, loadProgram_of_refused image h⟩
  · push Not at h
    have h1 : s.started = false := by simpa using h.1
    by_cases hl : image.length ≤ maxProgramLen
    · exact .inr ⟨h1, h.2, hl, loadProgram_of_fits h1 h.2 hl⟩
    · exact .inl ⟨_, loadProgram_of_tooLarge h1 h.2 (by omega)⟩

/-- A core is about to run at most one instruction. -/
theorem aboutToRun_inj {s : State} {i j : Instr} (h : s.aboutToRun i) (h' : s.aboutToRun j) : i = j := by
  obtain ⟨-, -, op, h1, h2⟩ := h
  obtain ⟨-, -, op', h1', h2'⟩ := h'
  rw [h1] at h1'
  obtain rfl : op = op' := by simpa using h1'
  rw [h2] at h2'
  simpa using h2'

end Sys2Proof.Machine
end

