-- ==== Sys2Proof/Tests/Slice0.lean ====
section
/-! SUPPORT. Smoke tests of well-formedness, one decoding per constructor from a word written out from its row of
spec/opcode_table.json, the vectors of 95_test_vectors.md as single steps, and for every obligation with
hypotheses a state and operands that meet them. -/

namespace Sys2Proof.Tests

open Sys2Proof Sys2Proof.Machine

/-! ### Well-formedness: what each check refuses, and the boundary it admits (R81, R83) -/

theorem test_wf_jp : (Instr.jp 0x1000).wellFormed = false ∧ (Instr.jp 0xFFF).wellFormed = true := by decide
theorem test_wf_call : (Instr.call 0x1000).wellFormed = false ∧ (Instr.call 0xFFF).wellFormed = true := by decide
theorem test_wf_ldI : (Instr.ldI 0xFFFF).wellFormed = false ∧ (Instr.ldI 0xFFF).wellFormed = true := by decide
theorem test_wf_jpV0 : (Instr.jpV0 0x1000).wellFormed = false ∧ (Instr.jpV0 0xFFF).wellFormed = true := by decide
theorem test_wf_seReg : (Instr.seReg 0 0 16).wellFormed = false ∧ (Instr.seReg 0 0 15).wellFormed = true := by decide
theorem test_wf_sneReg : (Instr.sneReg 0 0 16).wellFormed = false ∧ (Instr.sneReg 0 0 15).wellFormed = true := by
  decide
theorem test_wf_drw : (Instr.drw 0 0 16).wellFormed = false ∧ (Instr.drw 0 0 15).wellFormed = true := by decide

/-! ### Decoding: each word is written out from the `encoding` column of its row -/

theorem test_decode_cls : decodeWord 0b0000000011100000 = .ok (.cls) := by decide
theorem test_decode_ret : decodeWord 0b0000000011101110 = .ok (.ret) := by decide
theorem test_decode_jp : decodeWord 0b0001111111111111 = .ok (.jp 0xFFF) := by decide
theorem test_decode_call : decodeWord 0b0010001000001000 = .ok (.call 0x208) := by decide
theorem test_decode_seImm : decodeWord 0b0011001101000010 = .ok (.seImm 3 0x42) := by decide
theorem test_decode_sneImm : decodeWord 0b0100101111111110 = .ok (.sneImm 0xB 0xFE) := by decide
theorem test_decode_seReg : decodeWord 0b0101000100100011 = .ok (.seReg 1 2 3) := by decide
theorem test_decode_ldImm : decodeWord 0b0110101011111111 = .ok (.ldImm 0xA 0xFF) := by decide
theorem test_decode_addImm : decodeWord 0b0111001000100000 = .ok (.addImm 2 0x20) := by decide
theorem test_decode_ldReg : decodeWord 0b1000110100110000 = .ok (.ldReg 0xD 3) := by decide
theorem test_decode_orReg : decodeWord 0b1000110100110001 = .ok (.orReg 0xD 3) := by decide
theorem test_decode_andReg : decodeWord 0b1000110100110010 = .ok (.andReg 0xD 3) := by decide
theorem test_decode_xorReg : decodeWord 0b1000110100110011 = .ok (.xorReg 0xD 3) := by decide
theorem test_decode_addReg : decodeWord 0b1000110100110100 = .ok (.addReg 0xD 3) := by decide
theorem test_decode_subReg : decodeWord 0b1000110100110101 = .ok (.subReg 0xD 3) := by decide
theorem test_decode_shr : decodeWord 0b1000010001110110 = .ok (.shr 4 7) := by decide
theorem test_decode_subnReg : decodeWord 0b1000110100110111 = .ok (.subnReg 0xD 3) := by decide
theorem test_decode_shl : decodeWord 0b1000010001111110 = .ok (.shl 4 7) := by decide
theorem test_decode_sneReg : decodeWord 0b1001000100101111 = .ok (.sneReg 1 2 15) := by decide
theorem test_decode_ldI : decodeWord 0b1010001100000000 = .ok (.ldI 0x300) := by decide
theorem test_decode_jpV0 : decodeWord 0b1011111100000001 = .ok (.jpV0 0xF01) := by decide
theorem test_decode_rnd : decodeWord 0b1100001100001111 = .ok (.rnd 3 0x0F) := by decide
theorem test_decode_drw : decodeWord 0b1101001101000101 = .ok (.drw 3 4 5) := by decide
theorem test_decode_skp : decodeWord 0b1110001010011110 = .ok (.skp 2) := by decide
theorem test_decode_sknp : decodeWord 0b1110001010100001 = .ok (.sknp 2) := by decide
theorem test_decode_ldVxDt : decodeWord 0b1111000100000111 = .ok (.ldVxDt 1) := by decide
theorem test_decode_ldVxK : decodeWord 0b1111001100001010 = .ok (.ldVxK 3) := by decide
theorem test_decode_ldDtVx : decodeWord 0b1111000000010101 = .ok (.ldDtVx 0) := by decide
theorem test_decode_ldStVx : decodeWord 0b1111001000011000 = .ok (.ldStVx 2) := by decide
theorem test_decode_addIVx : decodeWord 0b1111010100011110 = .ok (.addIVx 5) := by decide
theorem test_decode_ldFVx : decodeWord 0b1111000100101001 = .ok (.ldFVx 1) := by decide
theorem test_decode_ldBVx : decodeWord 0b1111000000110011 = .ok (.ldBVx 0) := by decide
theorem test_decode_storeRegs : decodeWord 0b1111001001010101 = .ok (.storeRegs 2) := by decide
theorem test_decode_loadRegs : decodeWord 0b1111111101100101 = .ok (.loadRegs 0xF) := by decide

/-- Unallocated opcodes are refused under the name of their family (R87). -/
theorem test_decode_unallocated : decodeWord 0x0123 = .error (.unallocatedFamily0 0x0123) ∧
    decodeWord 0x800F = .error (.unallocatedFamily8 0x800F) ∧ decodeWord 0xE09F = .error (.unallocatedFamilyE 0xE09F) ∧
    decodeWord 0xF0FF = .error (.unallocatedFamilyF 0xF0FF) := by decide

/-- Bytes decode big-endian, and a lone byte is refused (R51, R80). -/
theorem test_decode_bytes : decode [0x12, 0x34, 0x60] = .ok (.jp 0x234, [0x60]) ∧ decode [0x12] = .error .truncated := by
  decide

theorem test_table_word : decodeTableWord 16 0xD345 = some (.drw 3 4 5) ∧ decodeTableWord 16 0x8128 = none := by decide

/-! ### Single steps, against the vectors of 95_test_vectors.md (the vector of each test is named) -/

/-- The state after the cycle that executes `op` at the `pc` of `s`. -/
def after (s : State) (op : Nat) : State :=
  match step (s.withFetchWord 16 op) with
  | .next t => t
  | .fault _ => s
  | .refused _ => s

/-- The state after one step that issues `x` to `s`. -/
def issue (s : State) (x : Transaction) : State :=
  match step { s with pending := [x] } with
  | .next t => t
  | .fault _ => s
  | .refused _ => s

/-- The reset state with some registers set. -/
def regs (l : List (RegIdx × Byte)) : State := l.foldl (fun s p => s.setReg p.1 p.2) State.reset

/-- The columns of the set cells of a row. -/
def columns (s : State) (y : Fin 32) : List Nat := ((List.finRange 64).filter fun x => s.cell y x).map (·.val)

/-- The screen after V-D1: glyph "0" at the origin. -/
def glyph0 : State := { State.reset with gfx := (drawSprite 0 0 [0xF0, 0x90, 0x90, 0x90, 0xF0] State.reset.gfx).1 }

set_option maxRecDepth 8000

/-- V-D11. -/
theorem test_cls : let t := after { glyph0 with v := glyph0.v.set 15 0x77 } 0x00E0
    t.gfx = State.reset.gfx ∧ t.dirty = true ∧ t.reg vf = 0x77 ∧ t.pc = 0x202 := by decide

/-- V-C6. -/
theorem test_ret : let t := after { State.reset with sp := 1, stack := State.reset.stack.set 0 0x200, pc := 0x208 } 0x00EE
    t.sp = 0 ∧ t.pc = 0x202 ∧ t.stack.get 0 = 0x200 := by decide

/-- V-C7. -/
theorem test_ret_empty : let t := after State.reset 0x00EE
    t.runState = .faulted ⟨.stackUnderflow, 0x200⟩ ∧ t.pc = 0x200 := by decide

/-- V-C1. -/
theorem test_jp : (after State.reset 0x1234).pc = 0x234 := by decide

/-- V-C3. -/
theorem test_jp_self : let t := after { State.reset with dt := 5 } 0x1200
    t.pc = 0x200 ∧ t.dt = 4 := by decide

/-- V-C4. -/
theorem test_call : let t := after State.reset 0x2208
    t.stack.get 0 = 0x200 ∧ t.sp = 1 ∧ t.pc = 0x208 := by decide

/-- V-C5. -/
theorem test_call_full : let t := after { State.reset with sp := 16 } 0x2208
    t.runState = .faulted ⟨.stackOverflow, 0x200⟩ ∧ t.sp = 16 ∧ t.pc = 0x200 ∧ t.stack = State.reset.stack := by decide

/-- V-C11. -/
theorem test_seImm : (after (regs [(3, 0x42)]) 0x3342).pc = 0x204 ∧ (after (regs [(3, 0x42)]) 0x3343).pc = 0x202 := by
  decide

/-- V-C12. -/
theorem test_sneImm : (after (regs [(3, 0x42)]) 0x4342).pc = 0x202 ∧ (after (regs [(3, 0x42)]) 0x4343).pc = 0x204 := by
  decide

/-- V-F8, V-C14. -/
theorem test_seReg : (after (regs [(1, 9), (2, 9)]) 0x5123).pc = 0x204 ∧
    (after (regs [(1, 7), (2, 8)]) 0x5120).pc = 0x202 := by decide

/-- V-F9, V-C15. -/
theorem test_sneReg : (after (regs [(1, 1), (2, 2)]) 0x912F).pc = 0x204 ∧
    (after (regs [(1, 1)]) 0x9110).pc = 0x202 := by decide

/-- V-A1. -/
theorem test_ldImm : let t := after (regs [(15, 0x55)]) 0x6AFF
    t.reg 0xA = 0xFF ∧ t.reg vf = 0x55 := by decide

/-- V-A2. -/
theorem test_addImm : let t := after (regs [(2, 0xF0), (15, 0x55)]) 0x7220
    t.reg 2 = 0x10 ∧ t.reg vf = 0x55 := by decide

/-- V-A4. -/
theorem test_addImm_vf : (after (regs [(15, 0x10)]) 0x7F01).reg vf = 0x11 := by decide

/-- V-A5. -/
theorem test_ldReg : let t := after (regs [(1, 0x33), (15, 0x55)]) 0x8010
    t.reg 0 = 0x33 ∧ t.reg vf = 0x55 := by decide

/-- V-A6. -/
theorem test_orReg : let t := after (regs [(0, 0x0C), (1, 0x0A), (15, 0x55)]) 0x8011
    t.reg 0 = 0x0E ∧ t.reg vf = 0x55 := by decide

/-- V-A6. -/
theorem test_andReg : let t := after (regs [(0, 0x0C), (1, 0x0A), (15, 0x55)]) 0x8012
    t.reg 0 = 0x08 ∧ t.reg vf = 0x55 := by decide

/-- V-A6. -/
theorem test_xorReg : let t := after (regs [(0, 0x0C), (1, 0x0A), (15, 0x55)]) 0x8013
    t.reg 0 = 0x06 ∧ t.reg vf = 0x55 := by decide

/-- V-A11, V-A10. -/
theorem test_addReg : let t := after (regs [(0, 0xFF), (1, 0xFF)]) 0x8014
    let u := after (regs [(0, 0x80), (1, 0x7F), (15, 0x55)]) 0x8014
    t.reg 0 = 0xFE ∧ t.reg vf = 1 ∧ u.reg 0 = 0xFF ∧ u.reg vf = 0 := by decide

/-- V-A13, V-A14. -/
theorem test_addReg_vf : let t := after (regs [(15, 0xFF), (1, 0x01)]) 0x8F14
    let u := after (regs [(0, 0x10), (15, 0x01)]) 0x80F4
    t.reg vf = 1 ∧ u.reg 0 = 0x11 ∧ u.reg vf = 0 := by decide

/-- V-A16, V-A17. -/
theorem test_subReg : let t := after (regs [(0, 0x03), (1, 0x05), (15, 0x55)]) 0x8015
    let u := after (regs [(0, 0x07), (1, 0x07)]) 0x8015
    t.reg 0 = 0xFE ∧ t.reg vf = 0 ∧ u.reg 0 = 0x00 ∧ u.reg vf = 1 := by decide

/-- V-A19, V-A20. -/
theorem test_subReg_vf : (after (regs [(15, 0x05), (1, 0x03)]) 0x8F15).reg vf = 1 ∧
    (after (regs [(15, 0x03), (1, 0x05)]) 0x8F15).reg vf = 0 := by decide

/-- V-A21. -/
theorem test_shr : let t := after (regs [(4, 0x05), (7, 0xF0)]) 0x8476
    t.reg 4 = 0x02 ∧ t.reg vf = 1 ∧ t.reg 7 = 0xF0 := by decide

/-- V-A24, V-A25. -/
theorem test_shr_vf : (after (regs [(15, 0x03)]) 0x8F06).reg vf = 1 ∧ (after (regs [(15, 0x02)]) 0x8F06).reg vf = 0 := by
  decide

/-- V-A26. -/
theorem test_subnReg : let t := after (regs [(0, 0x03), (1, 0x05)]) 0x8017
    t.reg 0 = 0x02 ∧ t.reg vf = 1 := by decide

/-- V-A27. -/
theorem test_subnReg_borrow : let t := after (regs [(0, 0x05), (1, 0x03), (15, 0x55)]) 0x8017
    t.reg 0 = 0xFE ∧ t.reg vf = 0 := by decide

/-- V-A29, V-A30. -/
theorem test_shl : let t := after (regs [(4, 0x81)]) 0x840E
    let u := after (regs [(4, 0x40), (15, 0x55)]) 0x840E
    t.reg 4 = 0x02 ∧ t.reg vf = 1 ∧ u.reg 4 = 0x80 ∧ u.reg vf = 0 := by decide

/-- V-A32. -/
theorem test_shl_vf : (after (regs [(15, 0x81)]) 0x8F0E).reg vf = 1 := by decide

/-- V-I1. -/
theorem test_ldI : (after State.reset 0xA300).i = 0x300 := by decide

/-- V-C9. -/
theorem test_jpV0 : (after (regs [(0, 0xFF)]) 0xBF01).pc = 0x1000 := by decide

/-- V-C10. -/
theorem test_jpV0_is_v0 : (after (regs [(0, 0x03), (5, 0x77)]) 0xB500).pc = 0x503 := by decide

/-- V-A33, with the draw left free. -/
theorem test_rnd : let t := after (regs [(15, 0x55)]) 0xC30F
    t.reg 3 = 0x0F &&& Config.randomByte 0 ∧ t.draws = 1 ∧ t.reg vf = 0x55 := ⟨rfl, rfl, rfl⟩

/-- V-A33, mask 0: the draw is taken all the same (R160). -/
theorem test_rnd_zero : let t := after (regs [(3, 0x99)]) 0xC300
    t.reg 3 = 0 ∧ t.draws = 1 := ⟨BitVec.zero_and, rfl⟩

/-- V-D1, V-D3. -/
theorem test_drw_collision : let t := after { glyph0 with i := 5 } 0xD015
    (List.finRange 5).map (fun y => columns glyph0 (Fin.castLE (by omega) y)) =
      [[0, 1, 2, 3], [0, 3], [0, 3], [0, 3], [0, 1, 2, 3]] ∧
    (List.finRange 5).map (fun y => columns t (Fin.castLE (by omega) y)) =
      [[0, 1, 3], [0, 1, 2, 3], [0, 2, 3], [0, 2, 3], [0]] ∧ t.reg vf = 1 ∧ t.dirty = true := by decide

/-- V-D4, V-D5: clipped at the right and at the bottom. -/
theorem test_drw_clip : let t := after (regs [(0, 62), (15, 0x55)]) 0xD011
    let u := after (regs [(1, 31)]) 0xD015
    columns t 0 = [62, 63] ∧ columns t 1 = [] ∧ t.reg vf = 0 ∧ columns u 31 = [0, 1, 2, 3] ∧ columns u 0 = [] := by
  decide

/-- V-K1, V-K2. -/
theorem test_skp : (after ((regs [(2, 5)]).setKey 5 true) 0xE29E).pc = 0x204 ∧ (after (regs [(2, 5)]) 0xE29E).pc = 0x202 := by
  decide

/-- V-K3. -/
theorem test_skp_range : let t := after (regs [(2, 0x10)]) 0xE29E
    t.runState = .faulted ⟨.keyIndexOutOfRange 0x10, 0x200⟩ ∧ t.pc = 0x200 := by decide

/-- V-K1, V-K2. -/
theorem test_sknp : (after ((regs [(2, 5)]).setKey 5 true) 0xE2A1).pc = 0x202 ∧ (after (regs [(2, 5)]) 0xE2A1).pc = 0x204 := by
  decide

/-- V-T2. -/
theorem test_ldVxDt : let t := after { State.reset with dt := 4 } 0xF107
    t.reg 1 = 4 ∧ t.dt = 3 := by decide

/-- V-K4. -/
theorem test_ldVxK : let t := after { State.reset with dt := 5 } 0xF30A
    t.runState = .awaitingKey 3 ∧ t.pc = 0x200 ∧ t.dt = 5 ∧ t.reply = .suspended := by decide

/-- V-T1, V-T4. -/
theorem test_ldDtVx : (after (regs [(0, 5)]) 0xF015).dt = 4 ∧ (after { State.reset with dt := 9 } 0xF015).dt = 0 := by
  decide

/-- V-T5, V-T6. -/
theorem test_ldStVx : let t := after (regs [(2, 1)]) 0xF218
    let u := after (regs [(2, 3)]) 0xF218
    t.st = 0 ∧ t.audible = false ∧ u.st = 2 ∧ u.audible = true := by decide

/-- V-I2, V-I3. -/
theorem test_addIVx : let t := after { regs [(5, 0x10), (15, 0x55)] with i := 0x300 } 0xF51E
    t.i = 0x310 ∧ t.reg vf = 0x55 ∧ (after { regs [(5, 0x01)] with i := 0xFFF } 0xF51E).i = 0x1000 := by decide

/-- V-I4. -/
theorem test_addIVx_wrap : (after { regs [(5, 0x01)] with i := 0xFFFF } 0xF51E).i = 0 := by decide

/-- V-I5. -/
theorem test_ldFVx : (after (regs [(1, 3)]) 0xF129).i = 0x00F ∧ (after (regs [(1, 0xF)]) 0xF129).i = 0x04B := by decide

/-- V-I6. -/
theorem test_ldFVx_range : let t := after (regs [(1, 0x10)]) 0xF129
    t.runState = .faulted ⟨.fontDigitOutOfRange 0x10, 0x200⟩ ∧ t.i = 0 := by decide

/-- V-B1. -/
theorem test_ldBVx : let t := after { regs [(0, 137)] with i := 0x300 } 0xF033
    t.readBytes 0x300 3 = [1, 3, 7] ∧ t.i = 0x300 := by decide

/-- V-B3. -/
theorem test_ldBVx_bounds : let t := after ({ regs [(0, 137)] with i := 0xFFE }.writeBytes 0xFFE [0xAA, 0xBB]) 0xF033
    t.runState = .faulted ⟨.memoryOutOfBounds 0x1000, 0x200⟩ ∧ t.readBytes 0xFFE 2 = [0xAA, 0xBB] := by decide

/-- V-M1. -/
theorem test_storeRegs : let t := after ({ regs [(0, 1), (1, 2), (2, 3)] with i := 0x300 }.writeByte 0x303 0xEE) 0xF255
    t.readBytes 0x300 4 = [1, 2, 3, 0xEE] ∧ t.i = 0x300 := by decide

/-- V-M3. -/
theorem test_storeRegs_bounds : let t := after { regs [(0, 1)] with i := 0xFFF } 0xF155
    t.runState = .faulted ⟨.memoryOutOfBounds 0x1000, 0x200⟩ ∧ t.readByte 0xFFF = 0 := by decide

/-- V-M4. -/
theorem test_loadRegs : let t := after ({ regs [(3, 0x44)] with i := 0x300 }.writeBytes 0x300 [1, 3, 7]) 0xF265
    (t.reg 0, t.reg 1, t.reg 2, t.reg 3) = (1, 3, 7, 0x44) ∧ t.i = 0x300 := by decide

/-- V-M6: the font is in memory. -/
theorem test_loadRegs_font : let t := after State.reset 0xF465
    (t.reg 0, t.reg 1, t.reg 2, t.reg 3, t.reg 4) = (0xF0, 0x90, 0x90, 0x90, 0xF0) := by decide

/-! ### The cycle and the host's transactions -/

/-- V-F2, V-F4: the last two bytes, and an odd address, are fetched. -/
theorem test_fetch : (after { State.reset with pc := 0xFFE } 0x1200).pc = 0x200 ∧
    (after { State.reset with pc := 0x203 } 0x6007).pc = 0x205 := by decide

/-- V-F3. -/
theorem test_fetch_bounds : let t := after { State.reset with pc := 0xFFF, dt := 3 } 0x1200
    t.runState = .faulted ⟨.fetchOutOfBounds, 0xFFF⟩ ∧ t.dt = 3 := by decide

/-- V-F5, V-F6. -/
theorem test_unallocated : let t := after { State.reset with dt := 2 } 0x0123
    let u := after { State.reset with params := ⟨Config.defaultFont, .fault⟩ } 0x0123
    t.report = some ⟨0x200, 0x0123⟩ ∧ t.pc = 0x202 ∧ t.dt = 1 ∧ t.v = State.reset.v ∧
    u.runState = .faulted ⟨.unknownOpcode 0x0123, 0x200⟩ ∧ u.pc = 0x200 := by decide

/-- A core that waits for a key, as V-K4 leaves it. -/
def waiting : State := { State.reset with runState := .awaitingKey 3, dt := 5, started := true }.writeBytes 0x200 [0xF3, 0x0A]

/-- V-K5, V-K6. -/
theorem test_waiting : let t := issue waiting .cycle
    let u := issue waiting (.keyEvent 9 false)
    t.toArch = waiting.toArch ∧ t.reply = .suspended ∧ u.toArch = waiting.toArch := by decide

/-- V-K8. -/
theorem test_key_completes : let t := issue waiting (.keyEvent 7 true)
    t.reg 3 = 7 ∧ t.key.get 7 = true ∧ t.pc = 0x202 ∧ t.runState = .running ∧ t.dt = 4 := by decide

/-- V-K10, first half. -/
theorem test_key_running : (issue State.reset (.keyEvent 4 true)).toArch =
    { Arch.reset with key := Arch.reset.key.set 4 true } := by decide

/-- The load of program P1, and V-H3. -/
theorem test_load : let image : List Byte := [0x60, 0x05, 0x61, 0x03, 0x80, 0x14]
    let t := issue State.reset (.loadProgram image)
    let u := issue { State.reset with started := true } (.loadProgram image)
    t.reply = .ok ∧ t.readBytes 0x1FF 8 = [0x00, 0x60, 0x05, 0x61, 0x03, 0x80, 0x14, 0x00] ∧
    u.reply = .refused ∧ u.mem = [] := by decide

/-- V-H4, V-H5, V-H6. -/
theorem test_host : let f : State := { waiting with runState := .faulted ⟨.stackUnderflow, 0x200⟩ }
    (issue { waiting with dirty := true } .clearDirty).toArch = waiting.toArch ∧
    (issue f .cycle).toArch = f.toArch ∧ (issue f .cycle).reply = .faulted ⟨.stackUnderflow, 0x200⟩ ∧
    (issue f .reset).toArch = Arch.reset := by decide

/-! ### Witnesses: for each obligation with hypotheses, states and operands that meet them, clause by clause, at the
boundaries of their ranges -/

theorem witness_EncodedInstructionDecodesToItself : (Instr.drw 15 15 15).wellFormed = true ∧
    (Instr.jp 0xFFF).wellFormed = true ∧ (Instr.seReg 0 0 0).wellFormed = true := by decide

theorem witness_DecodedOpcodeEncodesBack : decodeWord 0xFFFF = .error (.unallocatedFamilyF 0xFFFF) ∧
    decodeWord 0xDFFF = .ok (.drw 15 15 15) ∧ decodeWord 0x1000 = .ok (.jp 0) := by decide

/-- Each clause of the list at its ends, and the opcodes beside them that decode. -/
theorem witness_RejectedOpcodesAreTheUnallocated :
    decodeWord 0x0000 = .error (.unallocatedFamily0 0x0000) ∧ decodeWord 0x0FFF = .error (.unallocatedFamily0 0x0FFF) ∧
    decodeWord 0x8008 = .error (.unallocatedFamily8 0x8008) ∧ decodeWord 0x8FFF = .error (.unallocatedFamily8 0x8FFF) ∧
    decodeWord 0xE000 = .error (.unallocatedFamilyE 0xE000) ∧ decodeWord 0xF066 = .error (.unallocatedFamilyF 0xF066) ∧
    decodeWord 0x8007 = .ok (.subnReg 0 0) ∧ decodeWord 0x800E = .ok (.shl 0 0) := by decide

theorem witness_FetchReadsTwoBytesOrFaults : let s : State := { State.reset with pc := 0xFFE }
    let t : State := { State.reset with pc := 0xFFF }
    s.pc.toNat + 1 ≤ 0xFFF ∧ 0xFFF < t.pc.toNat + 1 ∧ t.nextTransaction = .cycle ∧ t.runState = .running := by decide

/-- An instruction at the last two bytes, one that leaves the core running, one that suspends it and one that
faults. -/
theorem witness_StepRunsDecodedInstruction :
    let s (op : Nat) : State := { State.reset with pc := 0xFFE }.withFetchWord 16 op
    let at' (op : Nat) : State := { s op with started := true, pending := [], report := none }
    (s 0x6A07).nextTransaction = .cycle ∧ (s 0x6A07).runState = .running ∧ (s 0x6A07).pc.toNat + 1 ≤ 0xFFF ∧
    decode [(s 0x6A07).readByte 0xFFE, (s 0x6A07).readByte 0xFFF] = .ok (.ldImm 10 7, []) ∧
    (∃ t, exec (.ldImm 10 7) (at' 0x6A07) = .next t ∧ t.runState = .running) ∧
    decode [(s 0xF30A).readByte 0xFFE, (s 0xF30A).readByte 0xFFF] = .ok (.ldVxK 3, []) ∧
    (∃ t, exec (.ldVxK 3) (at' 0xF30A) = .next t ∧ t.runState = .awaitingKey 3) ∧
    decode [(s 0x00EE).readByte 0xFFE, (s 0x00EE).readByte 0xFFF] = .ok (.ret, []) ∧
    (∃ t, exec .ret (at' 0x00EE) = .next t ∧ t.runState = .faulted ⟨.stackUnderflow, 0xFFE⟩) :=
  ⟨by decide, by decide, by decide, by decide, ⟨_, rfl, rfl⟩, by decide, ⟨_, rfl, rfl⟩, by decide, ⟨_, rfl, rfl⟩⟩

theorem witness_UnallocatedOpcodeFollowsPolicy : let s := State.reset
    let t : State := { State.reset with params := ⟨Config.defaultFont, .fault⟩ }
    s.nextTransaction = .cycle ∧ s.runState = .running ∧ s.fetch = some 0x0000 ∧
    decodeWord 0x0000 = .error (.unallocatedFamily0 0x0000) ∧ s.params.unknownOpcode = .skip ∧
    t.fetch = some 0x0000 ∧ t.params.unknownOpcode = .fault := by decide

theorem witness_ReportOnlyForUnallocatedOpcode : ∃ t, step State.reset = .next t ∧ t.report = some ⟨0x200, 0x0000⟩ :=
  ⟨_, rfl, by decide⟩

theorem witness_FaultChangesOnlyRunState : let s := (regs [(1, 0x10)]).withFetchWord 16 0xF129
    s.nextTransaction = .cycle ∧ s.runState = .running ∧
    ∃ t, step s = .next t ∧ t.runState = .faulted ⟨.fontDigitOutOfRange 0x10, 0x200⟩ :=
  ⟨by decide, by decide, _, rfl, by decide⟩

/-- A faulted core, with a transaction scheduled. -/
def faultedWith (x : Transaction) : State :=
  { State.reset with runState := .faulted ⟨.stackUnderflow, 0x200⟩, pending := [x], dirty := true }

theorem witness_FaultedCoreStaysUntilReset :
    (faultedWith .cycle).runState = .faulted ⟨.stackUnderflow, 0x200⟩ ∧ (faultedWith .cycle).nextTransaction = .cycle ∧
    (faultedWith (.keyEvent 15 true)).nextTransaction = .keyEvent 15 true ∧
    (faultedWith (.loadProgram [1])).nextTransaction = .loadProgram [1] ∧
    (faultedWith .clearDirty).nextTransaction = .clearDirty ∧ (faultedWith .reset).nextTransaction = .reset := by decide

/-- A completed cycle that sets a timer, a press that completes a wait, and a transaction that does not tick. -/
theorem witness_TimersTickOncePerCompletedCycle : let s := (regs [(0, 5)]).withFetchWord 16 0xF015
    let w : State := { waiting with pending := [.keyEvent 7 true] }
    (∃ t, step s = .next t ∧ t.runState = .running) ∧ s.nextTransaction = .cycle ∧ s.runState = .running ∧
    s.fetch = some 0xF015 ∧ (∃ t, step w = .next t) ∧ w.nextTransaction = .keyEvent 7 true ∧
    w.runState = .awaitingKey 3 ∧ (∃ t, step waiting = .next t) ∧ waiting.nextTransaction ≠ .reset ∧
    waiting.runState ≠ .running :=
  ⟨⟨_, rfl, by decide⟩, by decide, by decide, by decide, ⟨_, rfl⟩, by decide, by decide, ⟨_, rfl⟩, by decide, by decide⟩

theorem witness_WaitingCycleChangesNothing : waiting.nextTransaction = .cycle ∧ waiting.runState = .awaitingKey 3 := by
  decide

theorem witness_KeyEventSetsKeyAndCompletesWait :
    let w (b : Bool) : State := { waiting with pending := [.keyEvent 15 b] }
    let s : State := { State.reset with pending := [.keyEvent 0 true] }
    (w true).nextTransaction = .keyEvent 15 true ∧ (w true).runState = .awaitingKey 3 ∧
    (w false).nextTransaction = .keyEvent 15 false ∧ s.nextTransaction = .keyEvent 0 true ∧
    ∀ x, s.runState ≠ .awaitingKey x := by decide

theorem witness_LoadProgramPlacesImageVerbatim :
    let load (n : Nat) : State := { State.reset with pending := [.loadProgram (List.replicate n 0x77)] }
    (∀ n, (load n).nextTransaction = .loadProgram (List.replicate n 0x77)) ∧ { load 1 with started := true }.started = true ∧
    (∀ n, (load n).started = false) ∧ (∀ n, (load n).runState = .running) ∧
    3584 < (List.replicate 3585 (0x77 : Byte)).length ∧ (List.replicate 3584 (0x77 : Byte)).length ≤ 3584 ∧
    0 < (List.replicate 3584 (0x77 : Byte)).length :=
  ⟨fun _ => rfl, rfl, fun _ => rfl, fun _ => rfl, by rw [List.length_replicate]; omega,
    by rw [List.length_replicate], by rw [List.length_replicate]; omega⟩

theorem witness_ClearDirtyClearsOnlyTheFlag :
    ({ State.reset with pending := [.clearDirty], dirty := true } : State).nextTransaction = .clearDirty := by decide

theorem witness_ResetEstablishesInitialState : (faultedWith .reset).nextTransaction = .reset := by decide

theorem witness_StepIssuesNextTransaction :
    ({ State.reset with pending := [.clearDirty, .reset] } : State).pending = .clearDirty :: [.reset] ∧
    State.reset.pending = [] ∧ (faultedWith .reset).nextTransaction = .reset := by decide

theorem witness_JumpsSetOnlyPc : (0xFFF : Word).toNat < 0x1000 ∧ (0 : Word).toNat < 0x1000 := by decide

theorem witness_CallPushesItsAddress : ((0 : Fin 16).val = State.reset.sp.val) ∧
    (15 : Fin 16).val = ({ State.reset with sp := 15 } : State).sp.val ∧ ({ State.reset with sp := 16 } : State).sp.val = 16 := by
  decide

theorem witness_ReturnPopsAndAdvances : (15 : Fin 16).val + 1 = ({ State.reset with sp := 16 } : State).sp.val ∧
    (0 : Fin 16).val + 1 = ({ State.reset with sp := 1 } : State).sp.val ∧ State.reset.sp.val = 0 := by decide

theorem witness_ReturnResumesAfterItsCall : ({ State.reset with sp := 15 } : State).sp.val < 16 ∧
    ∃ t, exec (.call 0x300) { State.reset with sp := 15 } = .next t ∧ ∃ u : State, u.sp = t.sp ∧ u.stack = t.stack ∧ u ≠ t :=
  ⟨by decide, _, rfl, { State.reset with sp := 16, stack := State.reset.stack.set 15 0x200 }, by decide, by decide, by decide⟩

theorem witness_SkipsFollowComparison : (regs [(1, 7), (2, 7)]).reg 1 = (regs [(1, 7), (2, 7)]).reg 2 ∧
    (regs [(1, 7)]).reg 1 ≠ (regs [(1, 7)]).reg 2 ∧ (regs [(1, 7)]).reg 1 = 7 ∧ (regs [(1, 7)]).reg 1 ≠ 8 := by decide

theorem witness_AddLeavesCarryInVF : (14 : RegIdx) ≠ vf := by decide

theorem witness_SubtractionsLeaveNoBorrowInVF : (14 : RegIdx) ≠ vf := by decide

theorem witness_ShiftsLeaveLostBitInVF : (14 : RegIdx) ≠ vf := by decide

/-- A core about to run Cxkk, and one that is not. -/
theorem witness_OneDrawPerRandom : (∃ t, step (State.reset.withFetchWord 16 0xC3FF) = .next t) ∧
    (∃ x kk, (State.reset.withFetchWord 16 0xC3FF).aboutToRun (.rnd x kk)) ∧ (∃ t, step waiting = .next t) ∧
    ∀ x kk, ¬ waiting.aboutToRun (.rnd x kk) :=
  ⟨⟨_, rfl⟩, ⟨3, 0xFF, by decide, by decide, 0xC3FF, by decide, by decide⟩, ⟨_, rfl⟩,
    fun _ _ h => absurd h.2.1 (by decide)⟩

/-- The sprite ends at the last byte of memory, or has no rows; a sprite bit lands on a set and on a clear cell. -/
theorem witness_DrawFlipsCellsAndReportsCollision :
    ({ State.reset with i := 0xFF1 } : State).i.toNat + 15 ≤ 0x1000 ∧ ((0 : Nat) = 0 ∨ 0x1001 + 0 ≤ 0x1000) ∧
    0x1000 < ({ State.reset with i := 0xFF2 } : State).i.toNat + 15 ∧
    spriteDraws glyph0 0 1 5 0 0 ∧ glyph0.cell 0 0 = true ∧ ¬ spriteDraws glyph0 0 1 1 0 4 ∧
    spriteDraws State.reset 0 1 5 0 0 ∧ State.reset.cell 0 0 = false := by
  refine ⟨by decide, .inl rfl, by decide, ⟨0, 0, by decide⟩, by decide, ?_, ⟨0, 0, by decide⟩, by decide⟩
  rintro ⟨r, c, hr, hc, -, hX, hb⟩
  obtain rfl : r = 0 := by omega
  have : c = 4 := by simpa [glyph0, State.reset, Arch.reset, State.reg, Vector.get_eq_getElem] using hX.symm
  subst this
  revert hb
  decide

theorem witness_DrawingTwiceRestoresTheScreen : (0 : RegIdx) ≠ vf ∧ (14 : RegIdx) ≠ vf ∧
    ({ State.reset with i := 0xFF1 } : State).i.toNat + 15 ≤ 0x1000 := by decide

theorem witness_TimerMovesAndTheirTick : State.reset.runState = .running := by decide

theorem witness_FontAddressOrFault : ((regs [(1, 0xF)]).reg 1).toNat ≤ 0xF ∧ 0xF < ((regs [(1, 0x10)]).reg 1).toNat := by
  decide

theorem witness_BcdStoresDecimalDigits : ({ State.reset with i := 0xFFD } : State).i.toNat + 3 ≤ 0x1000 ∧
    0x1000 < ({ State.reset with i := 0xFFE } : State).i.toNat + 3 := by decide

theorem witness_StoreRegistersFromIndex : ({ State.reset with i := 0xFF0 } : State).i.toNat + (15 : RegIdx).val + 1 ≤ 0x1000 ∧
    0x1000 < ({ State.reset with i := 0xFF1 } : State).i.toNat + (15 : RegIdx).val + 1 := by
  decide

theorem witness_LoadRegistersFromIndex : ({ State.reset with i := 0xFFF } : State).i.toNat + (0 : RegIdx).val + 1 ≤ 0x1000 ∧
    0x1000 < ({ State.reset with i := 0xFFFF } : State).i.toNat + (0 : RegIdx).val + 1 := by
  decide

theorem witness_StoredRegistersLoadBack : ({ State.reset with i := 0xFFB } : State).i.toNat + (4 : RegIdx).val + 1 ≤ 0x1000 := by
  decide

/-- One byte too many for each of the four instructions, and a first address that is itself outside. -/
theorem witness_OutOfBoundsAccessFaultsAtLowestAddress :
    0 < accessCount (.drw 0 1 3) ∧ 0x1000 < ({ State.reset with i := 0xFFE } : State).i.toNat + accessCount (.drw 0 1 3) ∧
    0 < accessCount (.ldBVx 0) ∧ 0x1000 < ({ State.reset with i := 0xFFE } : State).i.toNat + accessCount (.ldBVx 0) ∧
    0 < accessCount (.storeRegs 1) ∧ 0x1000 < ({ State.reset with i := 0xFFF } : State).i.toNat + accessCount (.storeRegs 1) ∧
    0 < accessCount (.loadRegs 0) ∧ 0x1000 < ({ State.reset with i := 0xFFFF } : State).i.toNat + accessCount (.loadRegs 0) := by
  decide

theorem witness_StoreIsFetchedByNextCycle : let s : State := { State.reset with pc := 0xFEE, i := 0xFF0 }
    s.pc.toNat + 2 = s.i.toNat ∧ s.i.toNat + 16 ≤ 0x1000 ∧ 1 ≤ (1 : RegIdx).val := by decide

theorem witness_KeySkipsFollowTheBitmap : ((regs [(2, 15)]).reg 2).toNat = (15 : KeyIdx).val ∧
    16 ≤ ((regs [(2, 16)]).reg 2).toNat ∧ ((regs [(2, 15)]).setKey 15 true).key.get 15 = true := by decide

/-- A core in the middle of a run, waiting at its Fx0A with a return address on the stack. -/
theorem witness_StepKeepsInvariant : let s : State := { waiting with sp := 1, stack := State.reset.stack.set 0 0x300 }
    Inv s ∧ ∃ t, step s = .next t := by
  refine ⟨⟨by decide, by decide, by decide, ?_, ?_, ?_⟩, _, rfl⟩
  · intro x h
    obtain rfl : (3 : RegIdx) = x := by simpa [waiting] using h
    exact ⟨0xF30A, by decide, by decide⟩
  · intro r h
    simp [waiting] at h
  · intro h
    simp [waiting] at h

theorem witness_InstructionChangesOnlyItsFootprint : (∃ t, exec (.call 0x300) State.reset = .next t) ∧
    ∃ t, exec .ret State.reset = .next t := ⟨⟨_, rfl⟩, _, rfl⟩

/-- A store, a load of a program and a reset that change memory. -/
theorem witness_MemoryWrittenOnlyByStoresAndLoads :
    let s : State := { regs [(0, 9)] with i := 0x300 }.withFetchWord 16 0xF055
    let l : State := { State.reset with pending := [.loadProgram [0x60]] }
    let r : State := { waiting with pending := [.reset] }
    (∃ t, step s = .next t ∧ t.mem ≠ s.mem) ∧ s.aboutToRun (.storeRegs 0) ∧ (∃ t, step l = .next t ∧ t.mem ≠ l.mem) ∧
    ∃ t, step r = .next t ∧ t.mem ≠ r.mem :=
  ⟨⟨_, rfl, by decide⟩, ⟨by decide, by decide, 0xF055, by decide, by decide⟩, ⟨_, rfl, by decide⟩, ⟨_, rfl, by decide⟩⟩

theorem witness_StackMovesOnlyByCallAndReturn : let c := State.reset.withFetchWord 16 0x2208
    let r := { State.reset with sp := 1 }.withFetchWord 16 0x00EE
    let z : State := { State.reset with sp := 16, pending := [.reset] }
    (∃ t, step c = .next t ∧ t.sp ≠ c.sp) ∧ (∃ t, step r = .next t ∧ t.sp ≠ r.sp) ∧ ∃ t, step z = .next t ∧ t.sp ≠ z.sp :=
  ⟨⟨_, rfl, by decide⟩, ⟨_, rfl, by decide⟩, ⟨_, rfl, by decide⟩⟩

theorem witness_ScreenChangesOnlyByDrawing : let d := State.reset.withFetchWord 16 0xD015
    let c : State := { State.reset with dirty := true, pending := [.clearDirty] }
    d.nextTransaction ≠ .reset ∧ (∃ t, step d = .next t ∧ t.gfx ≠ d.gfx ∧ d.dirty = false ∧ t.dirty = true) ∧
    c.nextTransaction ≠ .reset ∧ ∃ t, step c = .next t ∧ c.dirty = true ∧ t.dirty = false :=
  ⟨by decide, ⟨_, rfl, by decide, by decide, by decide⟩, by decide, _, rfl, by decide, by decide⟩

theorem witness_KeysChangeOnlyByHostEvents : let s : State := { State.reset with pending := [.keyEvent 15 true] }
    let r : State := { State.reset.setKey 0 true with pending := [.reset] }
    (∃ t, step s = .next t ∧ t.key ≠ s.key) ∧ ∃ t, step r = .next t ∧ t.key ≠ r.key :=
  ⟨⟨_, rfl, by decide⟩, _, rfl, by decide⟩

theorem witness_StackIsLastInFirstOut : State.reset.sp.val + (List.replicate 16 (0x200 : Word)).length ≤ 16 ∧
    16 < State.reset.sp.val + (List.replicate 17 (0x200 : Word)).length := by decide

theorem witness_CanonicalMemoriesReadingAlikeAreEqual : let m : Memory := [(0x000, 0x00), (0x300, 0x01), (0xFFF, 0xFF)]
    m.wf Config.defaultParams ∧ ∀ a, m.read Config.defaultParams a = m.read Config.defaultParams a :=
  ⟨by decide, fun _ => rfl⟩

theorem witness_EmptyMemoryRunsToItsEnd : 0 < 1792 ∧ 1791 < 1792 := by decide

end Sys2Proof.Tests
end

section
/-! O47: every step keeps the invariant. What one operation does to `Inv` is said once per operation; a step is then
one of the cases of `step_running_cases` and `step_other_cases`. -/

namespace Sys2Proof.Proofs

open Sys2Proof.Machine

/-! ### What decodes is well formed (R82, R83) -/

theorem addressFits_opNnn (op : Word) : addressFits (opNnn op) = true := by
  simp only [addressFits, Laws.opNnn_toNat, decide_eq_true_eq]
  omega

theorem nibbleFits_opN (op : Word) : nibbleFits (opN op) = true := by
  simp only [nibbleFits, Laws.opN_eq, decide_eq_true_eq]
  omega

theorem wellFormed_of_decodeFamily0 {op : Word} {i : Instr} (h : decodeFamily0 op = .ok i) : i.wellFormed = true := by
  unfold decodeFamily0 at h
  split at h
  · cases h; rfl
  · split at h <;> cases h; rfl

theorem wellFormed_of_decodeFamily8 {op : Word} {i : Instr} (h : decodeFamily8 op = .ok i) : i.wellFormed = true := by
  unfold decodeFamily8 at h
  split at h <;> cases h <;> rfl

theorem wellFormed_of_decodeFamilyE {op : Word} {i : Instr} (h : decodeFamilyE op = .ok i) : i.wellFormed = true := by
  unfold decodeFamilyE at h
  split at h <;> cases h <;> rfl

theorem wellFormed_of_decodeFamilyF {op : Word} {i : Instr} (h : decodeFamilyF op = .ok i) : i.wellFormed = true := by
  unfold decodeFamilyF at h
  split at h <;> cases h <;> rfl

/-- The decoder cuts every address to 12 bits and every count to 4; the four families with a second level carry
neither. -/
theorem wellFormed_of_decodeWord {op : Word} {i : Instr} (h : decodeWord op = .ok i) : i.wellFormed = true := by
  unfold decodeWord at h
  split at h
  case h_1 => exact wellFormed_of_decodeFamily0 h
  case h_9 => exact wellFormed_of_decodeFamily8 h
  case h_15 => exact wellFormed_of_decodeFamilyE h
  case h_16 => exact wellFormed_of_decodeFamilyF h
  all_goals cases h
  case h_6 | h_10 | h_14 => exact nibbleFits_opN op
  case h_2 | h_3 | h_11 | h_12 => exact addressFits_opNnn op
  all_goals rfl

/-! ### The invariant, operation by operation -/

section

variable {s t : State}

/-- The fetch depends on the core and its font only. -/
theorem fetch_congr (ha : t.toArch = s.toArch) (hp : t.params = s.params) : t.fetch = s.fetch := by
  simp only [State.fetch, State.readByte, ha, hp]

/-- The invariant speaks of the core and its font only: outputs, draws and the schedule are free. -/
theorem inv_congr (h : Inv s) (ha : t.toArch = s.toArch) (hp : t.params = s.params) : Inv t where
  memWf := by rw [ha, hp]; exact h.memWf
  pcLow := by rw [ha]; exact h.pcLow
  stackLow := by rw [ha]; exact h.stackLow
  waiting := by rw [ha, fetch_congr ha hp]; exact h.waiting
  faultPc := by rw [ha]; exact h.faultPc
  fresh := by rw [ha]; exact h.fresh

/-- A core at reset meets the invariant. -/
theorem inv_of_reset (ha : t.toArch = Arch.reset) : Inv t where
  memWf := by rw [ha]; exact Memory.wf_nil _
  pcLow := by rw [ha]; decide
  stackLow := by rw [ha]; decide
  waiting := by rw [ha]; exact fun _ h => nomatch h
  faultPc := by rw [ha]; exact fun _ h => nomatch h
  fresh := by rw [ha]; exact fun _ => rfl

theorem inv_markStarted (h : Inv s) : Inv s.markStarted :=
  ⟨h.memWf, h.pcLow, h.stackLow, h.waiting, h.faultPc, fun hs => nomatch hs⟩

theorem inv_raiseFault (c : Cause) (h : Inv s) (hs : s.started = true) : Inv (raiseFault c s) where
  memWf := h.memWf
  pcLow := h.pcLow
  stackLow := h.stackLow
  waiting := fun _ hx => nomatch hx
  faultPc := by
    intro r hr
    cases hr
    rfl
  fresh := fun hf => by simp [hs] at hf

/-- The core waits at the Fx0A it has just fetched. -/
theorem inv_awaitKey {op : Word} {x : RegIdx} (h : Inv s) (hs : s.started = true) (hf : s.fetch = some op)
    (hd : decodeWord op = .ok (.ldVxK x)) : Inv (s.setRunState (.awaitingKey x)) where
  memWf := h.memWf
  pcLow := h.pcLow
  stackLow := h.stackLow
  waiting := by
    intro y hy
    cases hy
    exact ⟨op, hf, hd⟩
  faultPc := fun _ hr => nomatch hr
  fresh := fun hf => by simp [hs] at hf

/-- The tick and the reply that end a cycle touch nothing the invariant speaks of, once the core has started. -/
theorem inv_endCycle (h : Inv s) (hs : s.started = true) : Inv (endCycle s) where
  memWf := by simpa using h.memWf
  pcLow := by simpa using h.pcLow
  stackLow := by simpa using h.stackLow
  waiting := by simpa using h.waiting
  faultPc := by simpa using h.faultPc
  fresh := by simp [hs]

/-- A running core that has started and goes on running needs only its memory, `pc` and stack kept. -/
theorem inv_of_running (hr : t.runState = .running) (hs : t.started = true) (hm : t.mem.wf t.params)
    (hp : t.pc.toNat ≤ 0x10FE) (hst : ∀ j : Fin 16, (t.stack.get j).toNat ≤ 0xFFE) : Inv t where
  memWf := hm
  pcLow := hp
  stackLow := hst
  waiting := fun x hx => by simp [hr] at hx
  faultPc := fun r hf => by simp [hr] at hf
  fresh := fun hf => by simp [hs] at hf

/-- An instruction pushes at most the address it was fetched from, so return addresses stay low. -/
theorem stackLow_of_completes {i : Instr} (hc : Completes i s t) (hpc : s.pc.toNat ≤ 0xFFE)
    (hst : ∀ j : Fin 16, (s.stack.get j).toNat ≤ 0xFFE) (j : Fin 16) : (t.stack.get j).toNat ≤ 0xFFE := by
  rcases hc.stack with ⟨-, he⟩ | ⟨_, -, -, hj⟩ | ⟨-, -, he⟩
  · exact he ▸ hst j
  · rcases hj j with he | he
    · exact he ▸ hst j
    · exact he ▸ hpc
  · exact he ▸ hst j

theorem inv_completes {i : Instr} {op : Word} (h : Inv s) (hr : s.runState = .running) (hs : s.started = true)
    (hf : s.fetch = some op) (hd : decodeWord op = .ok i) (hc : Completes i s t) : Inv t := by
  have hpc : s.pc.toNat ≤ 0xFFE := by have := pc_le_of_fetch hf; omega
  exact inv_of_running (hc.runState.trans hr) (hc.started.trans hs) (hc.memWf h.memWf)
    (hc.pcLow (wellFormed_of_decodeWord hd) hpc h.stackLow) (stackLow_of_completes hc hpc h.stackLow)

/-- A `pc` the fetch admits can be stepped over. -/
theorem advance_low_of_fetch {op : Word} (hf : s.fetch = some op) : s.advance.pc.toNat ≤ 0x10FE :=
  advance_low (by have := pc_le_of_fetch hf; omega)

theorem execUnallocated_started (op : Word) (s : State) : (execUnallocated op s).started = s.started := by
  rcases execUnallocated_cases op s with ⟨-, he⟩ | ⟨-, he⟩ <;> rw [he] <;> rfl

theorem inv_execUnallocated {op : Word} (h : Inv s) (hr : s.runState = .running) (hs : s.started = true)
    (hf : s.fetch = some op) : Inv (execUnallocated op s) := by
  rcases execUnallocated_cases op s with ⟨-, he⟩ | ⟨-, he⟩
  · rw [he]
    exact inv_of_running hr hs h.memWf (advance_low_of_fetch hf) h.stackLow
  · rw [he]
    exact inv_raiseFault _ h hs

/-! ### The invariant, transaction by transaction -/

theorem inv_takeTransaction (h : Inv s) : Inv s.takeTransaction := inv_congr h rfl rfl

/-- Before its first cycle a core is at reset, whatever memory and keys the host gives it. -/
theorem arch_of_fresh (h : Inv s) (hs : s.started = false) (m : Memory) (k : Vector Bool 16) :
    ({ s.toArch with mem := m, key := k } : Arch) = { Arch.reset with mem := m, key := k } := by
  rw [h.fresh hs]

theorem inv_setKey (k : KeyIdx) (b : Bool) (h : Inv s) : Inv (s.setKey k b) where
  memWf := h.memWf
  pcLow := h.pcLow
  stackLow := h.stackLow
  waiting := h.waiting
  faultPc := h.faultPc
  fresh := fun hf => arch_of_fresh h hf _ _

/-- A core that has left `Running` has run a cycle. -/
theorem started_of_not_running (h : Inv s) (hr : s.runState ≠ .running) : s.started = true := by
  by_contra hs
  rw [h.fresh (by simpa using hs)] at hr
  exact hr rfl

theorem inv_keyEvent (k : KeyIdx) (b : Bool) (h : Inv s) : Inv (keyEvent k b s) := by
  rcases keyEvent_cases k b s with ⟨x, hx, -, he⟩ | ⟨-, he⟩
  · rw [he]
    obtain ⟨op, hf, -⟩ := h.waiting x hx
    have hs : s.started = true := started_of_not_running h (by simp [hx])
    exact inv_of_running rfl hs h.memWf (advance_low_of_fetch hf) h.stackLow
  · rw [he]
    exact inv_congr (inv_setKey k b h) rfl rfl

/-- A store to a running core inside memory keeps the invariant, before the first cycle too. -/
theorem inv_writeBytes {a : Nat} {bytes : List Byte} (h : Inv s) (hr : s.runState = .running)
    (hb : a + bytes.length ≤ memSize) : Inv (s.writeBytes a bytes) where
  memWf := writeBytes_wf bytes s a h.memWf hb
  pcLow := by simpa using h.pcLow
  stackLow := by simpa using h.stackLow
  waiting := by simp [hr]
  faultPc := by simp [hr]
  fresh := by
    intro hf
    rw [writeBytes_started] at hf
    rw [writeBytes_eq]
    exact arch_of_fresh h hf _ _

theorem inv_loadProgram (image : List Byte) (h : Inv s) : Inv (loadProgram image s) := by
  rcases loadProgram_cases image s with ⟨r, he⟩ | ⟨-, hr, hl, he⟩
  · rw [he]
    exact inv_congr h rfl rfl
  · rw [he]
    have hb : programBase + image.length ≤ memSize := Nat.add_le_add_left hl programBase
    exact inv_congr (inv_writeBytes h hr hb) rfl rfl

theorem inv_clearDirty (h : Inv s) : Inv (clearDirty s) where
  memWf := h.memWf
  pcLow := h.pcLow
  stackLow := h.stackLow
  waiting := h.waiting
  faultPc := h.faultPc
  fresh := fun hf => by
    show { s.toArch with dirty := false } = _
    rw [h.fresh hf]
    rfl

/-- A step that runs a cycle of a running core: a fetch fault, an unallocated opcode, or the decoded instruction. -/
theorem inv_step_running (h : Inv s) (hn : s.nextTransaction = .cycle) (hr : s.runState = .running)
    (hs : step s = .next t) : Inv t := by
  have h0 : Inv s.takeTransaction.markStarted := inv_markStarted (inv_takeTransaction h)
  rcases step_running_cases hn hr hs with
    ⟨-, rfl⟩ | ⟨op, e, hf, -, rfl⟩ | ⟨op, i, hf, hd, -, ⟨u, rfl, -, hc⟩ | ⟨x, rfl, rfl⟩ | ⟨c, rfl⟩⟩
  · exact inv_endCycle (inv_raiseFault _ h0 rfl) rfl
  · exact inv_endCycle (inv_execUnallocated h0 hr rfl hf) (execUnallocated_started op _)
  · exact inv_endCycle (inv_completes h0 hr rfl hf hd hc) hc.started
  · exact inv_endCycle (inv_awaitKey h0 rfl hf hd) rfl
  · exact inv_endCycle (inv_raiseFault c h0 rfl) rfl

/-- Any other step: an answer only, or one of the host's transactions. -/
theorem inv_step_other (h : Inv s) (hn : ¬ (s.nextTransaction = .cycle ∧ s.runState = .running))
    (hs : step s = .next t) : Inv t := by
  have h0 : Inv s.takeTransaction := inv_takeTransaction h
  rcases step_other_cases hs hn with
    ⟨-, r, rfl⟩ | ⟨k, b, -, rfl⟩ | ⟨image, -, rfl⟩ | ⟨-, rfl⟩ | ⟨-, rfl⟩
  · exact inv_congr h0 rfl rfl
  · exact inv_keyEvent k b h0
  · exact inv_loadProgram image h0
  · exact inv_clearDirty h0
  · exact inv_of_reset rfl

end

/-- Settles O47, case by case on what the step issued: every operation a step is made of keeps `Inv`. -/
theorem stepKeepsInvariant : Obligations.StepKeepsInvariant := by
  intro s t h hs
  by_cases hn : s.nextTransaction = .cycle ∧ s.runState = .running
  · exact inv_step_running h hn.1 hn.2 hs
  · exact inv_step_other h hn hs

end Sys2Proof.Proofs
end

section
/-! O48: every instruction changes at most its footprint. The frame of each operation of the state is said once;
the frame of an instruction is the chain of the frames of the operations it is made of. -/

namespace Sys2Proof.Machine

/-! ### Frames compose -/

theorem OnlyChanges.mono {A B : Part → Prop} {s t : State} (h : OnlyChanges A s t) (hAB : ∀ p, A p → B p) :
    OnlyChanges B s t := fun p hp => h p fun ha => hp (hAB p ha)

theorem Part.same.trans {s t u : State} {p : Part} (h₁ : p.same s t) (h₂ : p.same t u) : p.same s u := by
  cases p <;> exact Eq.trans h₂ h₁

/-- One operation after another changes at most what either of them does. -/
theorem OnlyChanges.andThen {A B : Part → Prop} {s t u : State} (h₁ : OnlyChanges A s t) (h₂ : OnlyChanges B t u) :
    OnlyChanges (fun p => A p ∨ B p) s u := fun p hp =>
  (h₁ p fun ha => hp (.inl ha)).trans (h₂ p fun hb => hp (.inr hb))

/-! ### The frame of each operation -/

section

variable (s : State) (x : RegIdx) (b f : Byte) (a : Word)

/-- A change of the register file changes the registers that differ. -/
theorem registers_onlyChanges {A : Part → Prop} {v : Vector Byte 16} (hv : ∀ r, ¬ A (.reg r) → v.get r = s.reg r) :
    OnlyChanges A s { s with v := v } := by
  intro p hp
  cases p with
  | reg r => exact hv r hp
  | _ => rfl

theorem setReg_onlyChanges : OnlyChanges (fun p => p = .reg x) s (s.setReg x b) :=
  registers_onlyChanges s fun r hr =>
    (setReg_reg s x r b).trans (if_neg fun e => hr (congrArg Part.reg e))

theorem jump_onlyChanges : OnlyChanges (fun p => p = .pc) s (s.jump a) := by
  intro p hp
  cases p with
  | pc => exact absurd rfl hp
  | _ => rfl

theorem setI_onlyChanges : OnlyChanges (fun p => p = .i) s (s.setI a) := by
  intro p hp
  cases p with
  | i => exact absurd rfl hp
  | _ => rfl

theorem setDt_onlyChanges : OnlyChanges (fun p => p = .dt) s (s.setDt b) := by
  intro p hp
  cases p with
  | dt => exact absurd rfl hp
  | _ => rfl

theorem setSt_onlyChanges : OnlyChanges (fun p => p = .st) s (s.setSt b) := by
  intro p hp
  cases p with
  | st => exact absurd rfl hp
  | _ => rfl

theorem takeDraw_onlyChanges : OnlyChanges (fun p => p = .draws) s s.takeDraw := by
  intro p hp
  cases p with
  | draws => exact absurd rfl hp
  | _ => rfl

theorem setRunState_onlyChanges (r : RunState) : OnlyChanges (fun p => p = .runState) s (s.setRunState r) := by
  intro p hp
  cases p with
  | runState => exact absurd rfl hp
  | _ => rfl

/-- A fault is a change of the run state (R230). -/
theorem raiseFault_onlyChanges (c : Cause) : OnlyChanges (fun p => p = .runState) s (raiseFault c s) :=
  setRunState_onlyChanges s (.faulted ⟨c, s.pc⟩)

theorem setScreen_onlyChanges (g : Gfx) :
    OnlyChanges (fun p => (∃ y x, p = .cell y x) ∨ p = .dirty) s (s.setScreen g) := by
  intro p hp
  cases p with
  | cell y x => exact absurd (.inl ⟨y, x, rfl⟩) hp
  | dirty => exact absurd (.inr rfl) hp
  | _ => rfl

theorem writeBytes_onlyChanges (k : Nat) (bs : List Byte) :
    OnlyChanges (fun p => ∃ j, j < bs.length ∧ p = .byte (k + j)) s (s.writeBytes k bs) := by
  intro p hp
  cases p with
  | byte q =>
    have hq : ¬ (k ≤ q ∧ q < k + bs.length) := fun hin =>
      hp ⟨q - k, by omega, congrArg Part.byte (by omega)⟩
    exact (writeBytes_readByte bs s k q).trans (dif_neg hq)
  | _ => rw [writeBytes_eq]; rfl

theorem loadRegRun_onlyChanges : OnlyChanges (fun p => ∃ r, r ≤ x ∧ p = .reg r) s (s.loadRegRun x) :=
  registers_onlyChanges s fun r hr =>
    (loadRegRun_reg s x r).trans (if_neg fun hle => hr ⟨r, hle, rfl⟩)

/-- A pushed address changes its entry of the stack and `sp`. -/
theorem pushed_onlyChanges (j : Fin 16) (k : Fin 17) :
    OnlyChanges (fun p => p = .stackEntry j ∨ p = .sp) s
      { s with stack := s.stack.set j.val a j.isLt, sp := k } := by
  intro p hp
  cases p with
  | stackEntry q =>
    have hq : q ≠ j := fun e => hp (.inl (congrArg Part.stackEntry e))
    simp [Part.same, hq]
  | sp => exact absurd (.inr rfl) hp
  | _ => rfl

/-- A return changes `sp` and `pc`; the popped entry stays. -/
theorem returned_onlyChanges (k : Fin 17) : OnlyChanges (fun p => p = .sp ∨ p = .pc) s { s with sp := k, pc := a } := by
  intro p hp
  cases p with
  | sp => exact absurd (.inl rfl) hp
  | pc => exact absurd (.inr rfl) hp
  | _ => rfl

/-! ### The shapes that instructions share -/

theorem setReg_advance_onlyChanges : OnlyChanges (fun p => p = .reg x ∨ p = .pc) s (s.setReg x b).advance :=
  (setReg_onlyChanges s x b).andThen (jump_onlyChanges _ _)

theorem setRegFlag_advance_onlyChanges :
    OnlyChanges (fun p => p = .reg x ∨ p = .reg vf ∨ p = .pc) s (s.setRegFlag x b f).advance :=
  (setReg_onlyChanges s x b).andThen (setReg_advance_onlyChanges _ vf f)

theorem setI_advance_onlyChanges : OnlyChanges (fun p => p = .i ∨ p = .pc) s (s.setI a).advance :=
  (setI_onlyChanges s a).andThen (jump_onlyChanges _ _)

/-- Stores from `I` on change the bytes they go to and `pc`, or they fault. -/
theorem storeAtI_onlyChanges {bytes : List Byte} (h0 : 0 < bytes.length) :
    OnlyChanges (fun p => storedByte s bytes.length p ∨ p = .pc ∨ p = .runState) s (storeAtI bytes s) := by
  by_cases hb : s.i.toNat + bytes.length ≤ memSize
  · rw [storeAtI_of_inside s hb]
    refine ((writeBytes_onlyChanges s _ bytes).andThen (jump_onlyChanges _ _)).mono ?_
    rintro p (hp | hp)
    · exact .inl hp
    · exact .inr (.inl hp)
  · rw [storeAtI_of_outside s h0 (by omega)]
    exact (raiseFault_onlyChanges s _).mono fun p hp => .inr (.inr hp)

end

/-! ### The instructions with more than one case -/

/-- The instruction answers a next state that differs from the state before in its footprint only. -/
def KeepsToFootprint (i : Instr) (s : State) : Prop := ∃ t, exec i s = .next t ∧ OnlyChanges (footprint s i) s t

section

variable (s : State) (x y : RegIdx) (n : Nat) (nnn : Word)

theorem keepsToFootprint_cls : KeepsToFootprint .cls s :=
  ⟨_, exec_cls s, ((setScreen_onlyChanges s _).andThen (jump_onlyChanges _ _)).mono fun _ hp => or_assoc.1 hp⟩

theorem keepsToFootprint_ret : KeepsToFootprint .ret s := by
  by_cases h : s.sp.val = 0
  · exact ⟨_, exec_ret_of_empty s h, (raiseFault_onlyChanges s _).mono fun _ hp => .inr (.inr hp)⟩
  · exact ⟨_, exec_ret_of_pos s (by omega), (returned_onlyChanges s _ _).mono fun _ hp => hp.imp_right .inl⟩

theorem keepsToFootprint_call : KeepsToFootprint (.call nnn) s := by
  by_cases h : s.sp.val < 16
  · refine ⟨_, exec_call_of_lt s nnn h, ?_⟩
    refine ((pushed_onlyChanges s s.pc ⟨s.sp.val, h⟩ _).andThen (jump_onlyChanges _ nnn)).mono ?_
    rintro p ((hp | hp) | hp)
    · exact .inl ⟨_, rfl, hp⟩
    · exact .inr (.inl hp)
    · exact .inr (.inr (.inl hp))
  · refine ⟨_, exec_call_of_full s nnn (by omega), ?_⟩
    exact (raiseFault_onlyChanges s _).mono fun _ hp => .inr (.inr (.inr hp))

theorem keepsToFootprint_rnd (kk : Byte) : KeepsToFootprint (.rnd x kk) s := by
  refine ⟨_, exec_rnd s x kk, ((takeDraw_onlyChanges s).andThen (setReg_advance_onlyChanges _ x _)).mono ?_⟩
  exact fun _ hp => or_left_comm.1 hp

theorem keepsToFootprint_drw : KeepsToFootprint (.drw x y n) s := by
  by_cases h : n = 0 ∨ s.i.toNat + n ≤ memSize
  · refine ⟨_, exec_drw_of_inside s x y n h, ?_⟩
    refine ((setScreen_onlyChanges s _).andThen (setReg_advance_onlyChanges _ vf _)).mono ?_
    rintro p ((hp | hp) | hp | hp)
    · exact .inl hp
    · exact .inr (.inr (.inl hp))
    · exact .inr (.inl hp)
    · exact .inr (.inr (.inr (.inl hp)))
  · refine ⟨_, exec_drw_of_outside s x y n (by omega) (by omega), ?_⟩
    exact (raiseFault_onlyChanges s _).mono fun _ hp => .inr (.inr (.inr (.inr hp)))

theorem keepsToFootprint_skp : KeepsToFootprint (.skp x) s := by
  by_cases h : (s.reg x).toNat < 16
  · exact ⟨_, exec_skp_of_key s x ⟨_, h⟩ rfl, (jump_onlyChanges s _).mono fun _ => .inl⟩
  · exact ⟨_, exec_skp_of_large s x (by omega), (raiseFault_onlyChanges s _).mono fun _ => .inr⟩

theorem keepsToFootprint_sknp : KeepsToFootprint (.sknp x) s := by
  by_cases h : (s.reg x).toNat < 16
  · exact ⟨_, exec_sknp_of_key s x ⟨_, h⟩ rfl, (jump_onlyChanges s _).mono fun _ => .inl⟩
  · exact ⟨_, exec_sknp_of_large s x (by omega), (raiseFault_onlyChanges s _).mono fun _ => .inr⟩

theorem keepsToFootprint_ldFVx : KeepsToFootprint (.ldFVx x) s := by
  by_cases h : (s.reg x).toNat ≤ 0xF
  · exact ⟨_, exec_ldFVx_of_digit s x h, (setI_advance_onlyChanges s _).mono fun _ hp => hp.imp_right .inl⟩
  · exact ⟨_, exec_ldFVx_of_large s x (by omega), (raiseFault_onlyChanges s _).mono fun _ hp => .inr (.inr hp)⟩

theorem keepsToFootprint_ldBVx : KeepsToFootprint (.ldBVx x) s :=
  ⟨_, exec_ldBVx s x, storeAtI_onlyChanges s (bytes := bcdDigits (s.reg x)) (by simp [bcdDigits])⟩

theorem keepsToFootprint_storeRegs : KeepsToFootprint (.storeRegs x) s := by
  have hframe := storeAtI_onlyChanges s (bytes := s.regRun x) (by simp [runLength])
  rw [regRun_length] at hframe
  exact ⟨_, exec_storeRegs s x, hframe⟩

theorem keepsToFootprint_loadRegs : KeepsToFootprint (.loadRegs x) s := by
  by_cases h : s.i.toNat + runLength x ≤ memSize
  · refine ⟨_, exec_loadRegs_of_inside s x h, ?_⟩
    exact ((loadRegRun_onlyChanges s x).andThen (jump_onlyChanges _ _)).mono fun _ hp => hp.imp_right .inl
  · refine ⟨_, exec_loadRegs_of_outside s x (by omega), ?_⟩
    exact (raiseFault_onlyChanges s _).mono fun _ hp => .inr (.inr hp)

end

/-- Every instruction keeps to its footprint, by the chain of operations it is made of. -/
theorem exec_keepsToFootprint (i : Instr) (s : State) : KeepsToFootprint i s := by
  cases i with
  | cls => exact keepsToFootprint_cls s
  | ret => exact keepsToFootprint_ret s
  | jp nnn => exact ⟨_, exec_jp s nnn, jump_onlyChanges s _⟩
  | call nnn => exact keepsToFootprint_call s nnn
  | seImm x kk => exact ⟨_, exec_seImm s x kk, jump_onlyChanges s _⟩
  | sneImm x kk => exact ⟨_, exec_sneImm s x kk, jump_onlyChanges s _⟩
  | seReg x y n => exact ⟨_, exec_seReg s x y n, jump_onlyChanges s _⟩
  | ldImm x kk => exact ⟨_, exec_ldImm s x kk, setReg_advance_onlyChanges s x _⟩
  | addImm x kk => exact ⟨_, exec_addImm s x kk, setReg_advance_onlyChanges s x _⟩
  | ldReg x y => exact ⟨_, exec_ldReg s x y, setReg_advance_onlyChanges s x _⟩
  | orReg x y => exact ⟨_, exec_orReg s x y, setReg_advance_onlyChanges s x _⟩
  | andReg x y => exact ⟨_, exec_andReg s x y, setReg_advance_onlyChanges s x _⟩
  | xorReg x y => exact ⟨_, exec_xorReg s x y, setReg_advance_onlyChanges s x _⟩
  | addReg x y => exact ⟨_, exec_addReg s x y, setRegFlag_advance_onlyChanges s x _ _⟩
  | subReg x y => exact ⟨_, exec_subReg s x y, setRegFlag_advance_onlyChanges s x _ _⟩
  | shr x y => exact ⟨_, exec_shr s x y, setRegFlag_advance_onlyChanges s x _ _⟩
  | subnReg x y => exact ⟨_, exec_subnReg s x y, setRegFlag_advance_onlyChanges s x _ _⟩
  | shl x y => exact ⟨_, exec_shl s x y, setRegFlag_advance_onlyChanges s x _ _⟩
  | sneReg x y n => exact ⟨_, exec_sneReg s x y n, jump_onlyChanges s _⟩
  | ldI nnn => exact ⟨_, exec_ldI s nnn, setI_advance_onlyChanges s _⟩
  | jpV0 nnn => exact ⟨_, exec_jpV0 s nnn, jump_onlyChanges s _⟩
  | rnd x kk => exact keepsToFootprint_rnd s x kk
  | drw x y n => exact keepsToFootprint_drw s x y n
  | skp x => exact keepsToFootprint_skp s x
  | sknp x => exact keepsToFootprint_sknp s x
  | ldVxDt x => exact ⟨_, exec_ldVxDt s x, setReg_advance_onlyChanges s x _⟩
  | ldVxK x => exact ⟨_, exec_ldVxK s x, setRunState_onlyChanges s _⟩
  | ldDtVx x => exact ⟨_, exec_ldDtVx s x, (setDt_onlyChanges s _).andThen (jump_onlyChanges _ _)⟩
  | ldStVx x => exact ⟨_, exec_ldStVx s x, (setSt_onlyChanges s _).andThen (jump_onlyChanges _ _)⟩
  | addIVx x => exact ⟨_, exec_addIVx s x, setI_advance_onlyChanges s _⟩
  | ldFVx x => exact keepsToFootprint_ldFVx s x
  | ldBVx x => exact keepsToFootprint_ldBVx s x
  | storeRegs x => exact keepsToFootprint_storeRegs s x
  | loadRegs x => exact keepsToFootprint_loadRegs s x

end Sys2Proof.Machine

namespace Sys2Proof.Proofs

open Sys2Proof.Machine

/-- Settles O48, by cases on the instruction, each a chain of operations whose frames compose. -/
theorem instructionChangesOnlyItsFootprint : Obligations.InstructionChangesOnlyItsFootprint := by
  intro i s t h
  obtain ⟨u, he, hframe⟩ := exec_keepsToFootprint i s
  rw [he] at h
  cases h
  exact hframe

end Sys2Proof.Proofs
end

section
/-! O50, O51, O52: who may change the stack, the screen and the keys. One inversion of a step says which steps
touch none of them; the three rules read off its cases. -/

namespace Sys2Proof.Proofs

open Sys2Proof.Machine

/-- The step leaves the stack, the screen and its dirty flag alone, and the keys too unless it issued a key
event. -/
structure Quiet (s t : State) : Prop where
  sp : t.sp = s.sp
  stack : t.stack = s.stack
  gfx : t.gfx = s.gfx
  dirty : t.dirty = s.dirty
  key : t.key = s.key ∨ ∃ k b, s.nextTransaction = .keyEvent k b

section

variable {s t : State}

theorem quiet_execUnallocated (op : Word) (hs : t = endCycle (execUnallocated op s.takeTransaction.markStarted)) :
    Quiet s t := by
  subst hs
  rcases execUnallocated_cases op s.takeTransaction.markStarted with ⟨-, he⟩ | ⟨-, he⟩ <;> rw [he] <;>
    exact ⟨by simp, by simp, by simp, by simp, .inl (by simp)⟩

theorem quiet_keyEvent {k : KeyIdx} {b : Bool} (hn : s.nextTransaction = .keyEvent k b)
    (hs : t = keyEvent k b s.takeTransaction) : Quiet s t := by
  subst hs
  rcases keyEvent_cases k b s.takeTransaction with ⟨x, -, -, he⟩ | ⟨-, he⟩ <;> rw [he] <;>
    exact ⟨rfl, rfl, rfl, rfl, .inr ⟨k, b, hn⟩⟩

theorem quiet_loadProgram {image : List Byte} (hs : t = loadProgram image s.takeTransaction) : Quiet s t := by
  subst hs
  rcases loadProgram_cases image s.takeTransaction with ⟨r, he⟩ | ⟨-, -, -, he⟩ <;> rw [he] <;>
    exact ⟨by simp, by simp, by simp, by simp, .inl (by simp)⟩

/-- A step completes the instruction the core was about to run, or is quiet, or clears the dirty flag, or resets. -/
theorem step_quiet_cases (hs : step s = .next t) :
    (∃ i u, s.aboutToRun i ∧ Completes i s.takeTransaction.markStarted u ∧ t = endCycle u) ∨
    Quiet s t ∨ (s.nextTransaction = .clearDirty ∧ t = clearDirty s.takeTransaction) ∨
    s.nextTransaction = .reset := by
  by_cases hn : s.nextTransaction = .cycle ∧ s.runState = .running
  · rcases step_running_cases hn.1 hn.2 hs with
      ⟨-, rfl⟩ | ⟨op, e, -, -, he⟩ | ⟨op, i, -, -, hi, ⟨u, he, -, hc⟩ | ⟨x, -, rfl⟩ | ⟨c, rfl⟩⟩
    · exact .inr (.inl ⟨by simp, by simp, by simp, by simp, .inl (by simp)⟩)
    · exact .inr (.inl (quiet_execUnallocated op he))
    · exact .inl ⟨i, u, hi, hc, he⟩
    · exact .inr (.inl ⟨by simp, by simp, by simp, by simp, .inl (by simp)⟩)
    · exact .inr (.inl ⟨by simp, by simp, by simp, by simp, .inl (by simp)⟩)
  · rcases step_other_cases hs hn with
      ⟨-, r, rfl⟩ | ⟨k, b, hk, he⟩ | ⟨image, -, he⟩ | ⟨hd, he⟩ | ⟨hr, -⟩
    · exact .inr (.inl ⟨rfl, rfl, rfl, rfl, .inl rfl⟩)
    · exact .inr (.inl (quiet_keyEvent hk he))
    · exact .inr (.inl (quiet_loadProgram he))
    · exact .inr (.inr (.inl ⟨hd, he⟩))
    · exact .inr (.inr (.inr hr))

end

/-- Settles O50: of the steps that are not quiet, only a completed 2nnn or 00EE and a reset move the stack. -/
theorem stackMovesOnlyByCallAndReturn : Obligations.StackMovesOnlyByCallAndReturn := by
  intro s t hs hmoved
  rcases step_quiet_cases hs with ⟨i, u, hi, hc, rfl⟩ | hq | ⟨-, rfl⟩ | hr
  · rw [endCycle_sp, endCycle_stack] at hmoved ⊢
    rcases hc.stack with ⟨hsp, hst⟩ | ⟨nnn, rfl, hsp, -⟩ | ⟨rfl, hsp, hst⟩
    · exact absurd hmoved (by simp [hsp, hst])
    · exact .inl ⟨⟨nnn, hi⟩, hsp⟩
    · exact .inr (.inl ⟨hi, hsp, hst⟩)
  · exact absurd hmoved (by simp [hq.sp, hq.stack])
  · exact absurd hmoved (by simp [clearDirty])
  · exact .inr (.inr hr)

/-- Settles O51: a completed instruction leaves screen and flag alone or is one of the two that draw. -/
theorem screenChangesOnlyByDrawing : Obligations.ScreenChangesOnlyByDrawing := by
  intro s t hs hnr
  rcases step_quiet_cases hs with ⟨i, u, hi, hc, rfl⟩ | hq | ⟨hd, rfl⟩ | hr
  · rw [endCycle_gfx, endCycle_dirty]
    rcases hc.screen with ⟨hg, hd⟩ | ⟨hd, hdraw⟩
    · exact ⟨fun hne => absurd hg hne, fun h h' => by simp [hd, h] at h', fun h h' => by simp [hd, h] at h'⟩
    · have hrun : s.aboutToRun .cls ∨ ∃ x y n, s.aboutToRun (.drw x y n) := by
        rcases hdraw with rfl | ⟨x, y, n, rfl⟩
        · exact .inl hi
        · exact .inr ⟨x, y, n, hi⟩
      exact ⟨fun _ => ⟨hd, hrun⟩, fun _ h' => by simp [hd] at h', fun _ _ => hrun⟩
  · exact ⟨fun hne => absurd hq.gfx hne, fun h h' => by simp [hq.dirty, h] at h',
      fun h h' => by simp [hq.dirty, h] at h'⟩
  · exact ⟨fun hne => absurd rfl hne, fun _ _ => hd, fun _ h' => nomatch h'⟩
  · exact absurd hr hnr

/-- Settles O52: no instruction writes the keys, and a quiet step changes them by a key event only. -/
theorem keysChangeOnlyByHostEvents : Obligations.KeysChangeOnlyByHostEvents := by
  intro s t hs hne
  rcases step_quiet_cases hs with ⟨i, u, -, hc, rfl⟩ | hq | ⟨-, rfl⟩ | hr
  · exact absurd ((endCycle_key u).trans hc.key) hne
  · exact .inl (hq.key.resolve_left hne)
  · exact absurd rfl hne
  · exact .inr hr

end Sys2Proof.Proofs
end

section
/-! O54: the call stack is last in, first out. -/

namespace Sys2Proof.Proofs

open Sys2Proof.Machine

/-- The entry below `sp` is the one a pop gives. -/
theorem pop_of_top {s : State} {j : Fin 16} {k : Fin 17} (hj : s.sp.val = j.val + 1) (hk : k.val = j.val) :
    s.pop = some (s.stack.get j, { s with sp := k }) := by
  rw [pop_of_pos s (by omega)]
  simp [Vector.get_eq_getElem, hj, ← hk]

theorem popMany_succ {s t u : State} {a : Word} {as : List Word} {n : Nat} (h : s.pop = some (a, t))
    (hn : t.popMany n = some (as, u)) : s.popMany (n + 1) = some (a :: as, u) := by
  simp [State.popMany, h, hn]

/-- One more pop after `n` of them gives the next address at the end. -/
theorem popMany_succ_last {t u : State} {a : Word} (n : Nat) : ∀ (s : State) (as : List Word),
    s.popMany n = some (as, t) → t.pop = some (a, u) → s.popMany (n + 1) = some (as ++ [a], u) := by
  induction n with
  | zero =>
    intro s as h hpop
    cases h
    exact popMany_succ hpop rfl
  | succ n ih =>
    intro s as h hpop
    obtain ⟨⟨b, s'⟩, hb, h'⟩ := Option.bind_eq_some_iff.1 h
    obtain ⟨⟨bs, t'⟩, hbs, he⟩ := Option.map_eq_some_iff.1 h'
    cases he
    exact popMany_succ hb (ih s' bs hbs hpop)

/-- Pushes that fit are undone by as many pops, which give them back in reverse and leave the entries below the
old `sp` alone. The last part carries the induction: the entry the first push made is still there for the last
pop. -/
theorem pushAll_popMany (as : List Word) : ∀ s : State, s.sp.val + as.length ≤ 16 →
    ∃ t u, s.pushAll as = some t ∧ t.popMany as.length = some (as.reverse, u) ∧
      t.sp.val = s.sp.val + as.length ∧ u.sp = s.sp ∧
      ∀ j : Fin 16, j.val < s.sp.val → u.stack.get j = s.stack.get j := by
  induction as with
  | nil => exact fun s _ => ⟨s, s, rfl, rfl, rfl, rfl, fun _ _ => rfl⟩
  | cons a as ih =>
    intro s hfit
    rw [List.length_cons] at hfit
    have hlt : s.sp.val < 16 := by omega
    obtain ⟨t, u, hpush, hpop, htsp, husp, hbelow⟩ :=
      ih { s with stack := s.stack.set s.sp.val a hlt, sp := ⟨s.sp.val + 1, by omega⟩ } (by simp; omega)
    have htop : u.stack.get ⟨s.sp.val, hlt⟩ = a := by
      rw [hbelow ⟨s.sp.val, hlt⟩ (by simp)]
      simp [Vector.get_eq_getElem]
    have hlast : u.pop = some (a, { u with sp := s.sp }) :=
      htop ▸ pop_of_top (j := ⟨s.sp.val, hlt⟩) (congrArg Fin.val husp) rfl
    refine ⟨t, { u with sp := s.sp }, ?_, ?_, ?_, rfl, fun j hj => ?_⟩
    · rw [State.pushAll, push_of_lt s a hlt]
      exact hpush
    · rw [List.length_cons, List.reverse_cons]
      exact popMany_succ_last _ t _ hpop hlast
    · rw [htsp]
      simp; omega
    · have hne : s.sp.val ≠ j.val := by omega
      refine (hbelow j (by simp; omega)).trans ?_
      simp [Vector.get_eq_getElem, hne]

/-- Pushes past 16 entries do not fit. -/
theorem pushAll_eq_none (as : List Word) : ∀ s : State, 16 < s.sp.val + as.length → s.pushAll as = none := by
  induction as with
  | nil =>
    intro s h
    have := s.sp.isLt
    simp at h
    omega
  | cons a as ih =>
    intro s h
    rw [List.length_cons] at h
    rw [State.pushAll]
    by_cases hlt : s.sp.val < 16
    · rw [push_of_lt s a hlt]
      exact ih _ (by simp; omega)
    · rw [(push_eq_none s a).2 (by omega)]
      rfl

/-- Settles O54, by induction on the pushed addresses. -/
theorem stackIsLastInFirstOut : Obligations.StackIsLastInFirstOut := by
  refine fun s as => ⟨fun hfit => ?_, pushAll_eq_none as s⟩
  obtain ⟨t, u, hpush, hpop, htsp, husp, -⟩ := pushAll_popMany as s hfit
  exact ⟨t, u, hpush, hpop, htsp, husp⟩

end Sys2Proof.Proofs
end

section
/-! O53: the sound timer is never read. The two machines are `s` and `s.setSt b`; every operation but the tick and
Fx18 commutes with `setSt`, and those two end in a value of `ST` of their own. -/

namespace Sys2Proof.Proofs

open Sys2Proof.Machine

/-- Both outcomes are next states that differ at most in `ST`. -/
def DifferInSt (o o' : Host.Outcome State Fault Refusal) : Prop := ∃ t c, o = .next t ∧ o' = .next (t.setSt c)

theorem differInSt_of_eq {o o' : Host.Outcome State Fault Refusal} {t : State} {b : Byte} (h : o = .next t)
    (h' : o' = .next (t.setSt b)) : DifferInSt o o' := ⟨t, b, h, h'⟩

section

variable (s : State) (b : Byte)

/-! ### Operations that commute with `setSt` -/

theorem writeBytes_setSt (bs : List Byte) : ∀ (s : State) (a : Nat),
    (s.setSt b).writeBytes a bs = (s.writeBytes a bs).setSt b := by
  induction bs with
  | nil => exact fun _ _ => rfl
  | cons v bs ih => exact fun s a => ih (s.writeByte a v) (a + 1)

theorem storeAtI_setSt {bytes : List Byte} (h0 : 0 < bytes.length) :
    storeAtI bytes (s.setSt b) = (storeAtI bytes s).setSt b := by
  by_cases hb : s.i.toNat + bytes.length ≤ memSize
  · rw [storeAtI_of_inside s hb, storeAtI_of_inside (s.setSt b) hb]
    exact congrArg (fun u : State => u.jump (s.pc + 2)) (writeBytes_setSt b bytes s _)
  · rw [storeAtI_of_outside s h0 (by omega), storeAtI_of_outside (s.setSt b) h0 (by rw [setSt_i]; omega)]
    rfl

theorem execUnallocated_setSt (op : Word) : execUnallocated op (s.setSt b) = (execUnallocated op s).setSt b := by
  cases h : s.params.unknownOpcode <;> simp only [execUnallocated, setSt_params, h] <;> rfl

theorem loadProgram_setSt (image : List Byte) : loadProgram image (s.setSt b) = (loadProgram image s).setSt b := by
  by_cases h : s.started = true ∨ s.runState ≠ .running
  · rw [loadProgram_of_refused image h, loadProgram_of_refused (s := s.setSt b) image h]
    rfl
  · push Not at h
    have hs : s.started = false := by simpa using h.1
    by_cases hl : image.length ≤ maxProgramLen
    · rw [loadProgram_of_fits hs h.2 hl, loadProgram_of_fits (s := s.setSt b) hs h.2 hl, writeBytes_setSt]
      rfl
    · rw [loadProgram_of_tooLarge hs h.2 (by omega), loadProgram_of_tooLarge (s := s.setSt b) hs h.2 (by omega)]
      rfl

/-! ### Operations that write `ST` themselves -/

theorem endCycle_setSt : ∃ c, endCycle (s.setSt b) = (endCycle s).setSt c := by
  cases h : s.runState with
  | running =>
    rw [endCycle_of_running s h, endCycle_of_running (s.setSt b) h]
    exact ⟨countDown b, rfl⟩
  | awaitingKey x =>
    rw [endCycle_of_awaiting s h, endCycle_of_awaiting (s.setSt b) h]
    exact ⟨b, rfl⟩
  | faulted r =>
    rw [endCycle_of_faulted s h, endCycle_of_faulted (s.setSt b) h]
    exact ⟨b, rfl⟩

theorem keyEvent_setSt (k : KeyIdx) (pressed : Bool) :
    ∃ c, keyEvent k pressed (s.setSt b) = (keyEvent k pressed s).setSt c := by
  rcases keyEvent_cases k pressed s with ⟨x, hx, rfl, he⟩ | ⟨hc, he⟩
  · rw [he, keyEvent_of_awaiting (s := s.setSt b) hx]
    exact ⟨countDown b, rfl⟩
  · rw [he, keyEvent_of_not_awaiting (s := s.setSt b) hc]
    exact ⟨b, rfl⟩

/-! ### The instructions -/

section

variable (x y : RegIdx) (n : Nat) (nnn : Word)

theorem exec_call_setSt : DifferInSt (exec (.call nnn) s) (exec (.call nnn) (s.setSt b)) := by
  by_cases h : s.sp.val < 16
  · exact differInSt_of_eq (exec_call_of_lt s nnn h) (exec_call_of_lt (s.setSt b) nnn h)
  · have hfull : s.sp.val = 16 := by omega
    exact differInSt_of_eq (exec_call_of_full s nnn hfull) (exec_call_of_full (s.setSt b) nnn hfull)

theorem exec_ret_setSt : DifferInSt (exec .ret s) (exec .ret (s.setSt b)) := by
  by_cases h : s.sp.val = 0
  · exact differInSt_of_eq (exec_ret_of_empty s h) (exec_ret_of_empty (s.setSt b) h)
  · have hpos : 0 < s.sp.val := by omega
    exact differInSt_of_eq (exec_ret_of_pos s hpos) (exec_ret_of_pos (s.setSt b) hpos)

theorem exec_drw_setSt : DifferInSt (exec (.drw x y n) s) (exec (.drw x y n) (s.setSt b)) := by
  by_cases h : n = 0 ∨ s.i.toNat + n ≤ memSize
  · exact differInSt_of_eq (exec_drw_of_inside s x y n h) (exec_drw_of_inside (s.setSt b) x y n h)
  · have hout : memSize < s.i.toNat + n := by omega
    exact differInSt_of_eq (exec_drw_of_outside s x y n (by omega) hout)
      (exec_drw_of_outside (s.setSt b) x y n (by omega) hout)

theorem exec_skp_setSt : DifferInSt (exec (.skp x) s) (exec (.skp x) (s.setSt b)) := by
  by_cases h : (s.reg x).toNat < 16
  · exact differInSt_of_eq (exec_skp_of_key s x ⟨_, h⟩ rfl) (exec_skp_of_key (s.setSt b) x ⟨_, h⟩ rfl)
  · have hlarge : 16 ≤ (s.reg x).toNat := by omega
    exact differInSt_of_eq (exec_skp_of_large s x hlarge) (exec_skp_of_large (s.setSt b) x hlarge)

theorem exec_sknp_setSt : DifferInSt (exec (.sknp x) s) (exec (.sknp x) (s.setSt b)) := by
  by_cases h : (s.reg x).toNat < 16
  · exact differInSt_of_eq (exec_sknp_of_key s x ⟨_, h⟩ rfl) (exec_sknp_of_key (s.setSt b) x ⟨_, h⟩ rfl)
  · have hlarge : 16 ≤ (s.reg x).toNat := by omega
    exact differInSt_of_eq (exec_sknp_of_large s x hlarge) (exec_sknp_of_large (s.setSt b) x hlarge)

theorem exec_ldFVx_setSt : DifferInSt (exec (.ldFVx x) s) (exec (.ldFVx x) (s.setSt b)) := by
  by_cases h : (s.reg x).toNat ≤ 0xF
  · exact differInSt_of_eq (exec_ldFVx_of_digit s x h) (exec_ldFVx_of_digit (s.setSt b) x h)
  · have hlarge : 0xF < (s.reg x).toNat := by omega
    exact differInSt_of_eq (exec_ldFVx_of_large s x hlarge) (exec_ldFVx_of_large (s.setSt b) x hlarge)

theorem exec_loadRegs_setSt : DifferInSt (exec (.loadRegs x) s) (exec (.loadRegs x) (s.setSt b)) := by
  by_cases h : s.i.toNat + runLength x ≤ memSize
  · exact differInSt_of_eq (exec_loadRegs_of_inside s x h) (exec_loadRegs_of_inside (s.setSt b) x h)
  · have hout : memSize < s.i.toNat + runLength x := by omega
    exact differInSt_of_eq (exec_loadRegs_of_outside s x hout) (exec_loadRegs_of_outside (s.setSt b) x hout)

theorem exec_ldBVx_setSt : DifferInSt (exec (.ldBVx x) s) (exec (.ldBVx x) (s.setSt b)) :=
  differInSt_of_eq (exec_ldBVx s x) (congrArg Host.Outcome.next (storeAtI_setSt s b (by simp [bcdDigits])))

theorem exec_storeRegs_setSt : DifferInSt (exec (.storeRegs x) s) (exec (.storeRegs x) (s.setSt b)) :=
  differInSt_of_eq (exec_storeRegs s x) (congrArg Host.Outcome.next (storeAtI_setSt s b (by simp [runLength])))

end

/-- No instruction reads `ST`: those not named here have one case, whose operations commute with `setSt` as they
stand. -/
theorem exec_setSt (i : Instr) : DifferInSt (exec i s) (exec i (s.setSt b)) := by
  cases i with
  | ret => exact exec_ret_setSt s b
  | call nnn => exact exec_call_setSt s b nnn
  | drw x y n => exact exec_drw_setSt s b x y n
  | skp x => exact exec_skp_setSt s b x
  | sknp x => exact exec_sknp_setSt s b x
  | ldStVx x => exact ⟨_, s.reg x, exec_ldStVx s x, exec_ldStVx (s.setSt b) x⟩
  | ldFVx x => exact exec_ldFVx_setSt s b x
  | ldBVx x => exact exec_ldBVx_setSt s b x
  | storeRegs x => exact exec_storeRegs_setSt s b x
  | loadRegs x => exact exec_loadRegs_setSt s b x
  | _ => exact ⟨_, b, rfl, rfl⟩

/-! ### Cycles and transactions -/

theorem differInSt_endCycle : DifferInSt (.next (endCycle s)) (.next (endCycle (s.setSt b))) := by
  obtain ⟨c, hc⟩ := endCycle_setSt s b
  exact ⟨_, c, rfl, congrArg _ hc⟩

theorem differInSt_endOutcome {o o' : Host.Outcome State Fault Refusal} (h : DifferInSt o o') :
    DifferInSt (endOutcome o) (endOutcome o') := by
  obtain ⟨t, c, rfl, rfl⟩ := h
  exact differInSt_endCycle t c

theorem runInstruction_setSt : DifferInSt (runInstruction s) (runInstruction (s.setSt b)) := by
  unfold runInstruction
  rw [setSt_fetch]
  cases s.fetch with
  | none => exact differInSt_endCycle (raiseFault .fetchOutOfBounds s) b
  | some op =>
    cases hd : decodeWord op with
    | ok i =>
      simp only [hd]
      exact differInSt_endOutcome (exec_setSt s b i)
    | error e =>
      simp only [hd, execUnallocated_setSt]
      exact differInSt_endCycle _ b

theorem cycle_setSt : DifferInSt (cycle s) (cycle (s.setSt b)) := by
  cases h : s.runState with
  | running =>
    simp only [cycle, setSt_runState, h]
    exact runInstruction_setSt s.markStarted b
  | awaitingKey x => exact differInSt_of_eq (cycle_of_awaiting h) (cycle_of_awaiting (s := s.setSt b) h)
  | faulted r => exact differInSt_of_eq (cycle_of_faulted h) (cycle_of_faulted (s := s.setSt b) h)

theorem transact_setSt (x : Transaction) : DifferInSt (transact x s) (transact x (s.setSt b)) := by
  cases x with
  | cycle => exact cycle_setSt s b
  | keyEvent k pressed =>
    obtain ⟨c, hc⟩ := keyEvent_setSt s b k pressed
    exact ⟨_, c, rfl, congrArg _ hc⟩
  | loadProgram image => exact ⟨_, b, rfl, congrArg _ (loadProgram_setSt s b image)⟩
  | clearDirty => exact ⟨_, b, rfl, rfl⟩
  | reset => exact ⟨_, 0, rfl, rfl⟩

end

/-- Settles O53: the transaction a step issues keeps two machines that differ in `ST` only so. -/
theorem soundTimerIsNeverRead : Obligations.SoundTimerIsNeverRead :=
  fun s b => transact_setSt s.takeTransaction b s.nextTransaction

end Sys2Proof.Proofs
end

section
/-! O49: who may change memory. Of everything a step can do, a completed Fx33 or Fx55, a placed image and a reset
alone touch it. -/

namespace Sys2Proof.Proofs

open Sys2Proof.Machine

theorem execUnallocated_mem (op : Word) (s : State) : (execUnallocated op s).mem = s.mem := by
  rcases execUnallocated_cases op s with ⟨-, he⟩ | ⟨-, he⟩ <;> rw [he] <;> rfl

theorem keyEvent_mem (k : KeyIdx) (b : Bool) (s : State) : (keyEvent k b s).mem = s.mem := by
  rcases keyEvent_cases k b s with ⟨x, -, -, he⟩ | ⟨-, he⟩ <;> rw [he] <;> rfl

section

variable {s t : State}

/-- A cycle of a running core keeps memory, or it completed one of the two stores. -/
theorem mem_of_step_running (hn : s.nextTransaction = .cycle) (hr : s.runState = .running) (hs : step s = .next t) :
    t.mem = s.mem ∨ ∃ x, s.aboutToRun (.ldBVx x) ∨ s.aboutToRun (.storeRegs x) := by
  rcases step_running_cases hn hr hs with
    ⟨-, rfl⟩ | ⟨op, e, -, -, rfl⟩ | ⟨op, i, -, -, hi, ⟨u, rfl, -, hc⟩ | ⟨x, -, rfl⟩ | ⟨c, rfl⟩⟩
  · exact .inl (by simp)
  · exact .inl ((endCycle_mem _).trans (execUnallocated_mem op _))
  · rcases hc.mem with hm | ⟨x, rfl | rfl⟩
    · exact .inl ((endCycle_mem u).trans hm)
    · exact .inr ⟨x, .inl hi⟩
    · exact .inr ⟨x, .inr hi⟩
  · exact .inl (by simp)
  · exact .inl (by simp)

/-- Any other step keeps memory, or it issued a program load or a reset. -/
theorem mem_of_step_other (hn : ¬ (s.nextTransaction = .cycle ∧ s.runState = .running)) (hs : step s = .next t) :
    t.mem = s.mem ∨ (∃ image, s.nextTransaction = .loadProgram image) ∨ s.nextTransaction = .reset := by
  rcases step_other_cases hs hn with ⟨-, r, rfl⟩ | ⟨k, b, -, rfl⟩ | ⟨image, hl, -⟩ | ⟨-, rfl⟩ | ⟨hr, -⟩
  · exact .inl rfl
  · exact .inl (keyEvent_mem k b _)
  · exact .inr (.inl ⟨image, hl⟩)
  · exact .inl rfl
  · exact .inr (.inr hr)

end

/-- Settles O49, by the two kinds of step: a cycle of a running core, and any other. -/
theorem memoryWrittenOnlyByStoresAndLoads : Obligations.MemoryWrittenOnlyByStoresAndLoads := by
  intro s t hs hne
  by_cases hn : s.nextTransaction = .cycle ∧ s.runState = .running
  · exact .inl ((mem_of_step_running hn.1 hn.2 hs).resolve_left hne)
  · exact .inr ((mem_of_step_other hn hs).resolve_left hne)

end Sys2Proof.Proofs
end

section
/-! O55: a canonical memory lists exactly the cells that do not read as after reset, in the order of their addresses,
so its reads determine the list. -/

namespace Sys2Proof.Machine

theorem Memory.mem_of_lookup {m : Memory} {a : Nat} {b : Byte} (h : m.lookup a = some b) : (a, b) ∈ m := by
  induction m with
  | nil => simp [lookup] at h
  | cons c m ih =>
    by_cases hc : c.1 = a
    · have hb : c.2 = b := by simpa [lookup, hc] using h
      exact List.mem_cons.2 (.inl (Prod.ext hc hb).symm)
    · exact List.mem_cons_of_mem c (ih (by simpa [lookup, hc] using h))

/-- An address that does not read as after reset is listed, with the byte it reads as. -/
theorem Memory.mem_of_read_ne {p : Params} {m : Memory} {a : Nat} (h : m.read p a ≠ resetByte p a) :
    (a, m.read p a) ∈ m := by
  cases hl : m.lookup a with
  | none => exact absurd (by simp [read, hl]) h
  | some b =>
    have hr : m.read p a = b := by simp [read, hl]
    exact mem_of_lookup (hl.trans (congrArg some hr.symm))

theorem Memory.mem_iff_read {p : Params} {m : Memory} (h : m.wf p) (c : Host.Cell) :
    c ∈ m ↔ m.read p c.1 = c.2 ∧ c.2 ≠ resetByte p c.1 := by
  constructor
  · exact fun hc => ⟨read_of_mem h hc, (h.2 c hc).2⟩
  · rintro ⟨hread, hne⟩
    have hlisted := mem_of_read_ne (hread.symm ▸ hne)
    rwa [hread] at hlisted

end Sys2Proof.Machine

namespace Sys2Proof.Proofs

open Sys2Proof.Machine

/-- Settles O55: two lists that rise in the same order and have the same members are equal. -/
theorem canonicalMemoriesReadingAlikeAreEqual : Obligations.CanonicalMemoriesReadingAlikeAreEqual := by
  intro p m m' h h' hread
  have hasymm : Std.Asymm fun c d : Host.Cell => c.1 < d.1 := ⟨fun _ _ => Nat.lt_asymm⟩
  refine h.1.eq_of_mem_iff h'.1 fun c => ?_
  rw [Memory.mem_iff_read h, Memory.mem_iff_read h', hread]

end Sys2Proof.Proofs
end

section
/-! O42: the four instructions that access memory check every address first, and fault alike. -/

namespace Sys2Proof.Machine

/-- An access that leaves memory raises the fault at its lowest failing address: `I` itself when it is already
outside, else the first address past the end (R56, R225). -/
theorem exec_of_outside (s : State) (i : Instr) (h0 : 0 < accessCount i) (h : memSize < s.i.toNat + accessCount i) :
    exec i s = .next (raiseFault (.memoryOutOfBounds (max s.i.toNat memSize)) s) := by
  cases i with
  | drw x y n => exact exec_drw_of_outside s x y n h0 h
  | ldBVx x => rw [exec_ldBVx, storeAtI_of_outside s (bytes := bcdDigits (s.reg x)) h0 h]
  | storeRegs x =>
    rw [exec_storeRegs, storeAtI_of_outside s (by rwa [regRun_length]) (by rwa [regRun_length])]
  | loadRegs x => exact exec_loadRegs_of_outside s x h
  | _ => exact absurd h0 (Nat.lt_irrefl 0)

end Sys2Proof.Machine

namespace Sys2Proof.Proofs

open Sys2Proof.Machine

/-- Settles O42: the reported address is the larger of `I` and the size of memory, which is the access's lowest
failing one. -/
theorem outOfBoundsAccessFaultsAtLowestAddress : Obligations.OutOfBoundsAccessFaultsAtLowestAddress := by
  intro s i h0 h
  refine ⟨_, max s.i.toNat 0x1000, exec_of_outside s i h0 h, rfl, ?_, ?_, ?_, raiseFault_onlyChanges s _⟩
  · exact ⟨max s.i.toNat 0x1000 - s.i.toNat, by omega, by rw [State.addrAt]; omega⟩
  · exact Nat.le_max_right s.i.toNat 0x1000
  · exact fun k _ hk => Nat.max_le.2 ⟨Nat.le_add_right s.i.toNat k, hk⟩

end Sys2Proof.Proofs
end

section
/-! O5, O43: what the fetch reads. A fetch inside memory composes the two bytes at `pc`, a store before it included
(R52, R64); one that leaves memory faults, and only the bookkeeping of the cycle is written besides (R222). -/

namespace Sys2Proof.Machine

section

variable (s : State)

/-- The fetched word as a number, the byte at `pc` first. -/
theorem fetch_toNat (h : s.pc.toNat + 1 ≤ 0xFFF) : ∃ op : Word, s.fetch = some op ∧
    op.toNat = (s.readByte s.pc.toNat).toNat * 0x100 + (s.readByte (s.pc.toNat + 1)).toNat :=
  ⟨_, fetch_eq_some s h, Laws.bigEndian_toNat _ _⟩

theorem takeTransaction_onlyChanges :
    OnlyChanges (fun p => p = .pending ∨ p = .report) s s.takeTransaction := by
  intro p hp
  cases p with
  | pending => exact absurd (.inl rfl) hp
  | report => exact absurd (.inr rfl) hp
  | _ => rfl

theorem markStarted_onlyChanges : OnlyChanges (fun p => p = .started) s s.markStarted := by
  intro p hp
  cases p with
  | started => exact absurd rfl hp
  | _ => rfl

theorem answer_onlyChanges (r : Reply) : OnlyChanges (fun p => p = .reply) s (s.answer r) := by
  intro p hp
  cases p with
  | reply => exact absurd rfl hp
  | _ => rfl

/-- A cycle of a running core that ends in a fault changes the run state, `started` and what surrounds every
transaction (R230). -/
theorem faultedCycle_onlyChanges (c : Cause) :
    OnlyChanges (fun p => p = .runState ∨ p = .started ∨ p.issuing) s
      (endCycle (raiseFault c s.takeTransaction.markStarted)) := by
  rw [endCycle_of_faulted _ (raiseFault_runState _ c)]
  refine ((((takeTransaction_onlyChanges s).andThen (markStarted_onlyChanges _)).andThen
    (raiseFault_onlyChanges _ c)).andThen (answer_onlyChanges _ _)).mono ?_
  rintro p ((((rfl | rfl) | rfl) | rfl) | rfl) <;> simp [Part.issuing]

/-- A running core whose fetch leaves memory ends its cycle in the fault. -/
theorem step_of_fetch_none (hn : s.nextTransaction = .cycle) (hr : s.runState = .running) (hf : s.fetch = none) :
    step s = .next (endCycle (raiseFault .fetchOutOfBounds s.takeTransaction.markStarted)) := by
  rw [step_of_cycle hn]
  rcases cycle_of_running s.takeTransaction hr with ⟨-, hc⟩ | ⟨op, _, h, -, -⟩ | ⟨op, _, h, -, -⟩
  · exact hc
  all_goals exact absurd (hf.symm.trans h) (Option.some_ne_none op).symm

/-- A byte of a run of stores is read back where it went. -/
theorem writeBytes_readByte_stored (a : Nat) (bs : List Byte) {k : Nat} (hk : k < bs.length) :
    (s.writeBytes a bs).readByte (a + k) = bs[k] := by
  simp [writeBytes_readByte, hk]

/-- A store from `I` on, with `I` at the next instruction, makes its first two bytes the next opcode. -/
theorem storeAtI_fetch {bytes : List Byte} (h2 : 2 ≤ bytes.length) (hpc : s.pc.toNat + 2 = s.i.toNat)
    (hb : s.i.toNat + bytes.length ≤ memSize) :
    ∃ op, (storeAtI bytes s).fetch = some op ∧ op.toNat = bytes[0].toNat * 0x100 + bytes[1].toNat := by
  have hi : (s.pc + 2).toNat = s.i.toNat := by
    rw [BitVec.toNat_add, ← hpc]
    exact Nat.mod_eq_of_lt (hpc ▸ s.i.isLt)
  have hlow : s.i.toNat + 1 ≤ 0xFFF := by simp only [memSize] at hb; omega
  rw [storeAtI_of_inside s hb]
  obtain ⟨op, hf, hop⟩ := fetch_toNat ((s.writeBytes (s.addrAt 0) bytes).jump (s.pc + 2)) (hi ▸ hlow)
  have hfirst : (s.writeBytes (s.addrAt 0) bytes).readByte s.i.toNat = bytes[0] :=
    writeBytes_readByte_stored s _ bytes (k := 0) (Nat.lt_of_lt_of_le Nat.two_pos h2)
  have hsecond : (s.writeBytes (s.addrAt 0) bytes).readByte (s.i.toNat + 1) = bytes[1] :=
    writeBytes_readByte_stored s _ bytes h2
  rw [jump_pc, hi, jump_readByte, jump_readByte, hfirst, hsecond] at hop
  exact ⟨op, hf, hop⟩

end

end Sys2Proof.Machine

namespace Sys2Proof.Proofs

open Sys2Proof.Machine

/-- Settles O5: a fetch is inside memory and composes its two bytes, or it is none and the cycle faults. -/
theorem fetchReadsTwoBytesOrFaults : Obligations.FetchReadsTwoBytesOrFaults := by
  refine fun s => ⟨fetch_toNat s, fun hpc hn hr => ?_⟩
  refine ⟨_, step_of_fetch_none s hn hr ((fetch_eq_none s).2 hpc), ?_, ?_, ?_, faultedCycle_onlyChanges s _⟩
  · simp
  · rw [endCycle_of_faulted _ (raiseFault_runState _ _)]; simp
  · simp

/-- Settles O43: the run of Fx55 begins with V0 and V1, the digits of Fx33 with the hundreds and the tens. -/
theorem storeIsFetchedByNextCycle : Obligations.StoreIsFetchedByNextCycle := by
  refine fun s x hpc hb => ⟨fun hx => ?_, ?_⟩
  · have h2 : 2 ≤ (s.regRun x).length := by simp only [regRun_length, runLength]; omega
    have hin : s.i.toNat + (s.regRun x).length ≤ memSize := by
      simp only [regRun_length, runLength, memSize]; omega
    obtain ⟨op, hf, hop⟩ := storeAtI_fetch s h2 hpc hin
    rw [regRun_getElem, regRun_getElem] at hop
    exact ⟨_, op, exec_storeRegs s x, hf, hop⟩
  · have hin : s.i.toNat + (bcdDigits (s.reg x)).length ≤ memSize := by
      simp only [bcdDigits_length, memSize]; omega
    obtain ⟨op, hf, hop⟩ := storeAtI_fetch s (bytes := bcdDigits (s.reg x)) (Nat.le_succ 2) hpc hin
    have hlt := (s.reg x).isLt
    refine ⟨_, op, exec_ldBVx s x, hf, hop.trans ?_⟩
    simp [bcdDigits]
    omega

end Sys2Proof.Proofs
end

section
/-! O1: the decoder undoes the encoder. The fields of a packed opcode are the operands it was packed from, so the
dispatch finds the instruction again (R82 to R85). -/

namespace Sys2Proof.Laws

/-- One case per format: no operand, an address, a byte immediate or secondary code, four nibbles. -/
theorem decodeWord_encode {i : Instr} (h : i.wellFormed = true) : decodeWord (encode i) = .ok i := by
  cases i
  case cls | ret => rfl
  case jp nnn | call nnn | ldI nnn | jpV0 nnn =>
    have hn : nnn.toNat < 0x1000 := of_decide_eq_true h
    simp [encode, decodeWord, fields_packNnn, hn]
  case seReg x y n | sneReg x y n | drw x y n =>
    have hn : n < 16 := of_decide_eq_true h
    simp [encode, decodeWord, fields_packXyn, hn]
  case seImm x kk | sneImm x kk | ldImm x kk | addImm x kk | rnd x kk =>
    simp [encode, decodeWord, fields_packXkk, kk.isLt]
  case skp | sknp => simp [encode, decodeWord, decodeFamilyE, fields_packXkk]
  case ldVxDt | ldVxK | ldDtVx | ldStVx | addIVx | ldFVx | ldBVx | storeRegs | loadRegs =>
    simp [encode, decodeWord, decodeFamilyF, fields_packXkk]
  case ldReg | orReg | andReg | xorReg | addReg | subReg | shr | subnReg | shl =>
    simp [encode, decodeWord, decodeFamily8, fields_packXyn]

end Sys2Proof.Laws

namespace Sys2Proof.Proofs

/-- Settles O1: the bytes of an opcode decode as the opcode does, and the opcode to its instruction. -/
theorem encodedInstructionDecodesToItself : Obligations.EncodedInstructionDecodesToItself := by
  intro i rest h
  rw [Laws.decode_opBytes, Laws.decodeWord_encode h]

end Sys2Proof.Proofs
end

section
/-! O2: the encoder undoes the decoder. An opcode is packed from its own fields, and the dispatch fixes those its
instruction does not carry (R84 to R86). -/

namespace Sys2Proof.Laws

section

variable {op : Word} {f n kk : Nat} {i : Instr}

theorem packXyn_of_fields (hf : opFamily op = f) (hn : opN op = n) : packXyn f (opX op) (opY op) n = op := by
  subst hf hn
  have hn : opN op < 16 := by rw [opN_eq]; omega
  apply BitVec.eq_of_toNat_eq
  rw [packXyn_toNat (opFamily_lt op) (opX op).isLt (opY op).isLt hn, ← toNat_eq_digits]

theorem packXkk_of_fields (hf : opFamily op = f) (hk : (opKk op).toNat = kk) : packXkk f (opX op) kk = op := by
  subst hf hk
  apply BitVec.eq_of_toNat_eq
  rw [packXkk_toNat (opFamily_lt op) (opX op).isLt (opKk op).isLt, opFamily_eq, opX_val, opKk_toNat]
  omega

theorem packNnn_of_fields (hf : opFamily op = f) : packNnn f (opNnn op).toNat = op := by
  subst hf
  have hn : (opNnn op).toNat < 0x1000 := by rw [opNnn_toNat]; omega
  apply BitVec.eq_of_toNat_eq
  rw [packNnn_toNat (opFamily_lt op) hn, opFamily_eq, opNnn_toNat]
  omega

theorem encode_of_decodeFamily0 (h : decodeFamily0 op = .ok i) : encode i = op := by
  unfold decodeFamily0 at h
  split at h
  next hop => cases h; exact hop.symm
  next =>
    split at h
    next hop => cases h; exact hop.symm
    next => cases h

theorem encode_of_decodeFamily8 (hf : opFamily op = 0x8) (h : decodeFamily8 op = .ok i) : encode i = op := by
  unfold decodeFamily8 at h
  split at h
  case h_10 => cases h
  all_goals
    cases h
    exact packXyn_of_fields hf ‹opN op = _›

theorem encode_of_decodeFamilyE (hf : opFamily op = 0xE) (h : decodeFamilyE op = .ok i) : encode i = op := by
  unfold decodeFamilyE at h
  split at h
  case h_3 => cases h
  all_goals
    cases h
    exact packXkk_of_fields hf ‹(opKk op).toNat = _›

theorem encode_of_decodeFamilyF (hf : opFamily op = 0xF) (h : decodeFamilyF op = .ok i) : encode i = op := by
  unfold decodeFamilyF at h
  split at h
  case h_10 => cases h
  all_goals
    cases h
    exact packXkk_of_fields hf ‹(opKk op).toNat = _›

/-- A family with a second level packs its secondary code; every other one packs operands only. -/
theorem encode_of_decodeWord (h : decodeWord op = .ok i) : encode i = op := by
  unfold decodeWord at h
  split at h
  case h_1 => exact encode_of_decodeFamily0 h
  case h_9 hf => exact encode_of_decodeFamily8 hf h
  case h_15 hf => exact encode_of_decodeFamilyE hf h
  case h_16 hf => exact encode_of_decodeFamilyF hf h
  all_goals cases h
  case h_2 hf | h_3 hf | h_11 hf | h_12 hf => exact packNnn_of_fields hf
  case h_6 hf | h_10 hf | h_14 hf => exact packXyn_of_fields hf rfl
  case h_4 hf | h_5 hf | h_7 hf | h_8 hf | h_13 hf => exact packXkk_of_fields hf rfl

end

end Sys2Proof.Laws

namespace Sys2Proof.Proofs

/-- Settles O2: what decodes is well formed, and is packed again from the fields it was cut from. -/
theorem decodedOpcodeEncodesBack : Obligations.DecodedOpcodeEncodesBack :=
  fun _ _ h => ⟨wellFormed_of_decodeWord h, Laws.encode_of_decodeWord h⟩

end Sys2Proof.Proofs
end

section
/-! O3: only the four families with a second level reject an opcode, each outside its own list (R84, R87). -/

namespace Sys2Proof.Laws

section

variable (op : Word)

theorem decodeFamily0_rejects_iff : (∃ e, decodeFamily0 op = .error e) ↔ op ≠ 0x00E0 ∧ op ≠ 0x00EE := by
  unfold decodeFamily0
  split
  next h => simp [h]
  next h => split <;> simp_all

/-- One case per low nibble. -/
theorem decodeFamily8_rejects_iff :
    (∃ e, decodeFamily8 op = .error e) ↔ opN op ∈ [0x8, 0x9, 0xA, 0xB, 0xC, 0xD, 0xF] := by
  have hlt : opN op < 16 := by rw [opN_eq]; omega
  unfold decodeFamily8
  generalize opN op = n at hlt ⊢
  interval_cases n <;> simp

theorem decodeFamilyE_rejects_iff : (∃ e, decodeFamilyE op = .error e) ↔ (opKk op).toNat ∉ [0x9E, 0xA1] := by
  unfold decodeFamilyE
  split <;> simp_all

theorem decodeFamilyF_rejects_iff : (∃ e, decodeFamilyF op = .error e) ↔
    (opKk op).toNat ∉ [0x07, 0x0A, 0x15, 0x18, 0x1E, 0x29, 0x33, 0x55, 0x65] := by
  unfold decodeFamilyF
  split <;> simp_all

/-- Rule R87 by the fields of the opcode, one case per high nibble. -/
theorem decodeWord_rejects_iff : (∃ e, decodeWord op = .error e) ↔
    (opFamily op = 0x0 ∧ op ≠ 0x00E0 ∧ op ≠ 0x00EE) ∨
    (opFamily op = 0x8 ∧ opN op ∈ [0x8, 0x9, 0xA, 0xB, 0xC, 0xD, 0xF]) ∨
    (opFamily op = 0xE ∧ (opKk op).toNat ∉ [0x9E, 0xA1]) ∨
    (opFamily op = 0xF ∧ (opKk op).toNat ∉ [0x07, 0x0A, 0x15, 0x18, 0x1E, 0x29, 0x33, 0x55, 0x65]) := by
  rw [← decodeFamily0_rejects_iff, ← decodeFamily8_rejects_iff, ← decodeFamilyE_rejects_iff,
    ← decodeFamilyF_rejects_iff]
  have hlt := opFamily_lt op
  unfold decodeWord
  generalize opFamily op = f at hlt ⊢
  interval_cases f <;> simp

end

end Sys2Proof.Laws

namespace Sys2Proof.Proofs

/-- Settles O3: the fields of the opcode written as digits of its number. -/
theorem rejectedOpcodesAreTheUnallocated : Obligations.RejectedOpcodesAreTheUnallocated := by
  intro op
  have h0 : op.toNat / 0x1000 = 0x0 ↔ op.toNat ≤ 0x0FFF := by omega
  rw [Laws.decodeWord_rejects_iff, Laws.opFamily_eq, Laws.opN_eq, Laws.opKk_toNat, h0]

/-- Settles O4, by running the decoder on each word. -/
theorem sampleOpcodesDecode : Obligations.SampleOpcodesDecode := by
  unfold Obligations.SampleOpcodesDecode
  decide

end Sys2Proof.Proofs
end

section
/-! O7: the cycle that fetches an unallocated opcode, under either policy (R88, R228). -/

namespace Sys2Proof.Machine

section

variable (s : State) {op : Word} {e : DecodeError}

theorem tick_onlyChanges : OnlyChanges (fun p => p = .dt ∨ p = .st) s s.tick := by
  intro p hp
  cases p with
  | dt => exact absurd (.inl rfl) hp
  | st => exact absurd (.inr rfl) hp
  | _ => rfl

theorem emit_onlyChanges (d : Report) : OnlyChanges (fun p => p = .report) s (s.emit d) := by
  intro p hp
  cases p with
  | report => exact absurd rfl hp
  | _ => rfl

theorem execUnallocated_of_skip {s : State} (op : Word) (h : s.params.unknownOpcode = .skip) :
    execUnallocated op s = s.advance.emit ⟨s.pc, op⟩ := by
  simp [execUnallocated, h]

theorem execUnallocated_of_fault {s : State} (op : Word) (h : s.params.unknownOpcode = .fault) :
    execUnallocated op s = raiseFault (.unknownOpcode op) s := by
  simp [execUnallocated, h]

/-- A running core that fetches an unallocated opcode does with it what its policy says and ends its cycle. -/
theorem step_of_unallocated (hn : s.nextTransaction = .cycle) (hr : s.runState = .running) (hf : s.fetch = some op)
    (hd : decodeWord op = .error e) :
    step s = .next (endCycle (execUnallocated op s.takeTransaction.markStarted)) := by
  rw [step_of_cycle hn]
  rcases cycle_of_running s.takeTransaction hr with ⟨h, -⟩ | ⟨op', _, h, -, hc⟩ | ⟨op', i, h, hi, -⟩
  · exact absurd (h.symm.trans hf) (Option.some_ne_none op).symm
  · rwa [Option.some.inj (h.symm.trans hf)] at hc
  · rw [Option.some.inj (h.symm.trans hf), hd] at hi
    exact nomatch hi

/-- Under `Skip` the opcode is reported and stepped over, and the cycle completes with its tick. -/
theorem step_of_skipped (hn : s.nextTransaction = .cycle) (hr : s.runState = .running) (hf : s.fetch = some op)
    (hd : decodeWord op = .error e) (hp : s.params.unknownOpcode = .skip) :
    step s = .next ((s.takeTransaction.markStarted.advance.emit ⟨s.pc, op⟩).tick.answer .completed) := by
  rw [step_of_unallocated s hn hr hf hd, execUnallocated_of_skip (s := s.takeTransaction.markStarted) op hp]
  exact congrArg _ (endCycle_of_running _ hr)

theorem skippedCycle_onlyChanges (d : Report) (r : Reply) :
    OnlyChanges (fun p => p = .pc ∨ p = .dt ∨ p = .st ∨ p = .started ∨ p.issuing) s
      ((s.takeTransaction.markStarted.advance.emit d).tick.answer r) := by
  refine ((((((takeTransaction_onlyChanges s).andThen (markStarted_onlyChanges _)).andThen
    (jump_onlyChanges _ _)).andThen (emit_onlyChanges _ d)).andThen (tick_onlyChanges _)).andThen
    (answer_onlyChanges _ r)).mono ?_
  rintro p ((((((rfl | rfl) | rfl) | rfl) | rfl) | (rfl | rfl)) | rfl) <;> simp [Part.issuing]

/-- Under `Fault` the cycle ends in the fault. -/
theorem step_of_unknownFault (hn : s.nextTransaction = .cycle) (hr : s.runState = .running) (hf : s.fetch = some op)
    (hd : decodeWord op = .error e) (hp : s.params.unknownOpcode = .fault) :
    step s = .next (endCycle (raiseFault (.unknownOpcode op) s.takeTransaction.markStarted)) := by
  rw [step_of_unallocated s hn hr hf hd, execUnallocated_of_fault (s := s.takeTransaction.markStarted) op hp]

end

end Sys2Proof.Machine

namespace Sys2Proof.Proofs

open Sys2Proof.Machine

/-- Settles O7: one step per policy, and the frame of each. -/
theorem unallocatedOpcodeFollowsPolicy : Obligations.UnallocatedOpcodeFollowsPolicy := by
  refine fun s op e hn hr hf hd => ⟨fun hp => ?_, fun hp => ?_⟩
  · exact ⟨_, step_of_skipped s hn hr hf hd hp, rfl, rfl, rfl, rfl, countDown_toNat s.dt, countDown_toNat s.st,
      skippedCycle_onlyChanges s _ _⟩
  · exact ⟨_, step_of_unknownFault s hn hr hf hd hp, rfl, rfl, rfl, rfl, faultedCycle_onlyChanges s _⟩

end Sys2Proof.Proofs
end

section
/-! O8, O31: the report and the draws. Only an unallocated opcode under `Skip` reports and only Cxkk draws; every
step that runs no cycle of a running core does neither (R114, R115). -/

namespace Sys2Proof.Machine

section

variable {s t : State}

theorem step_of_issued {x : Transaction} (hn : s.nextTransaction = x) : step s = transact x s.takeTransaction := by
  rw [step_eq, hn]

/-- A core about to run an instruction executes it, once it is marked started, and ends the cycle (R101, R102). -/
theorem step_of_aboutToRun {i : Instr} (h : s.aboutToRun i) :
    step s = endOutcome (exec i s.takeTransaction.markStarted) := by
  obtain ⟨hn, hr, op, hf, hd⟩ := h
  rw [step_of_cycle hn]
  rcases cycle_of_running s.takeTransaction hr with ⟨h, -⟩ | ⟨op', e, h, he, -⟩ | ⟨op', j, h, hj, hc⟩
  · exact absurd (h.symm.trans hf) (Option.some_ne_none op).symm
  · rw [Option.some.inj (h.symm.trans hf), hd] at he
    exact nomatch he
  · rw [Option.some.inj (h.symm.trans hf), hd] at hj
    rwa [← Except.ok.inj hj] at hc

@[simp] theorem execUnallocated_draws (op : Word) (s : State) : (execUnallocated op s).draws = s.draws := by
  rcases execUnallocated_cases op s with ⟨-, he⟩ | ⟨-, he⟩ <;> rw [he] <;> rfl

/-- From a state with no report, an unallocated opcode is reported under `Skip` only. -/
theorem report_of_execUnallocated {op : Word} {d : Report} (h0 : s.report = none)
    (h : (execUnallocated op s).report = some d) : s.params.unknownOpcode = .skip ∧ d = ⟨s.pc, op⟩ := by
  rcases execUnallocated_cases op s with ⟨hp, he⟩ | ⟨-, he⟩
  · rw [he] at h
    exact ⟨hp, (Option.some.inj h).symm⟩
  · rw [he, raiseFault_report, h0] at h
    exact nomatch h

/-- A step other than a cycle of a running core takes no draw and emits no report. -/
theorem draws_and_report_of_step_other (hs : step s = .next t)
    (hn : ¬ (s.nextTransaction = .cycle ∧ s.runState = .running)) : t.draws = s.draws ∧ t.report = none := by
  rcases step_other_cases hs hn with ⟨-, r, rfl⟩ | ⟨k, b, -, rfl⟩ | ⟨image, -, rfl⟩ | ⟨-, rfl⟩ | ⟨-, rfl⟩
  · exact ⟨rfl, rfl⟩
  · rcases keyEvent_cases k b s.takeTransaction with ⟨x, -, -, he⟩ | ⟨-, he⟩ <;> rw [he] <;> exact ⟨rfl, rfl⟩
  · rcases loadProgram_cases image s.takeTransaction with ⟨r, he⟩ | ⟨-, -, -, he⟩ <;> rw [he] <;> simp
  · exact ⟨rfl, rfl⟩
  · exact ⟨rfl, rfl⟩

theorem drawCount_of_not_rnd {i : Instr} (h : ∀ x kk, i ≠ .rnd x kk) : drawCount i = 0 := by
  cases i with
  | rnd x kk => exact absurd rfl (h x kk)
  | _ => rfl

end

end Sys2Proof.Machine

namespace Sys2Proof.Proofs

open Sys2Proof.Machine

/-- Settles O8: no transaction starts with a report, and of what a step can then do only `execUnallocated` under
`Skip` emits one. -/
theorem reportOnlyForUnallocatedOpcode : Obligations.ReportOnlyForUnallocatedOpcode := by
  intro s t d hs hd
  by_cases hn : s.nextTransaction = .cycle ∧ s.runState = .running
  · rcases step_running_cases hn.1 hn.2 hs with
      ⟨-, rfl⟩ | ⟨op, e, hf, he, rfl⟩ | ⟨op, i, -, -, -, ⟨u, rfl, -, hc⟩ | ⟨x, -, rfl⟩ | ⟨c, rfl⟩⟩ <;>
      rw [endCycle_report] at hd
    · exact nomatch hd
    · obtain ⟨hp, rfl⟩ := report_of_execUnallocated rfl hd
      exact ⟨hn.1, hn.2, hp, rfl, hf, e, he⟩
    · exact nomatch hc.report.symm.trans hd
    · exact nomatch hd
    · exact nomatch hd
  · exact nomatch (draws_and_report_of_step_other hs hn).2.symm.trans hd

/-- Settles O31: Cxkk has one case, which draws once; any other instruction draws as often as `drawCount` says. -/
theorem oneDrawPerRandom : Obligations.OneDrawPerRandom := by
  refine fun s t hs => ⟨fun ⟨x, kk, hi⟩ => ?_, fun hi => ?_⟩
  · rw [step_of_aboutToRun hi, exec_rnd] at hs
    rw [← Host.Outcome.next.inj hs]
    simp
  · by_cases hn : s.nextTransaction = .cycle ∧ s.runState = .running
    · rcases step_running_cases hn.1 hn.2 hs with
        ⟨-, rfl⟩ | ⟨op, e, -, -, rfl⟩ | ⟨op, i, -, -, hrun, ⟨u, rfl, -, hc⟩ | ⟨x, -, rfl⟩ | ⟨c, rfl⟩⟩
      · simp
      · simp
      · have hzero : drawCount i = 0 := drawCount_of_not_rnd fun x kk e => hi x kk (e ▸ hrun)
        simp [hc.draws, hzero]
      · simp
      · simp
    · exact (draws_and_report_of_step_other hs hn).1

end Sys2Proof.Proofs
end

section
/-! O12: the timers. A completed cycle counts them down from what its instruction left, a completing press from what
they were; every other step but a reset leaves them (R104). -/

namespace Sys2Proof.Machine

section

variable {s t : State}

/-- A cycle that leaves the core running completed an unallocated opcode, which leaves the timers to the tick, or an
instruction. -/
theorem timers_of_completed (hn : s.nextTransaction = .cycle) (hr : s.runState = .running) (hs : step s = .next t)
    (ht : t.runState = .running) : ∃ op, s.fetch = some op ∧
      ((∃ e, decodeWord op = .error e ∧ t.dt = countDown s.dt ∧ t.st = countDown s.st) ∨
        ∃ i, decodeWord op = .ok i ∧ t.dt = countDown (dtAfter i s) ∧ t.st = countDown (stAfter i s)) := by
  rcases step_running_cases hn hr hs with
    ⟨-, rfl⟩ | ⟨op, e, hf, he, rfl⟩ | ⟨op, i, hf, hd, -, ⟨u, rfl, -, hc⟩ | ⟨x, -, rfl⟩ | ⟨c, rfl⟩⟩ <;>
    rw [endCycle_runState] at ht
  · exact nomatch ht
  · refine ⟨op, hf, .inl ⟨e, he, ?_⟩⟩
    rcases execUnallocated_cases op s.takeTransaction.markStarted with ⟨-, hu⟩ | ⟨-, hu⟩ <;> rw [hu] at ht ⊢
    · exact endCycle_timers_of_running _ ht
    · exact nomatch ht
  · refine ⟨op, hf, .inr ⟨i, hd, ?_⟩⟩
    have htick := endCycle_timers_of_running u ht
    rw [hc.dt, hc.st] at htick
    exact htick
  · exact nomatch ht
  · exact nomatch ht

/-- A cycle of a running core that waits or faults leaves the timers. -/
theorem timers_of_not_completed (hn : s.nextTransaction = .cycle) (hr : s.runState = .running)
    (hs : step s = .next t) (ht : t.runState ≠ .running) : t.dt = s.dt ∧ t.st = s.st := by
  rcases step_running_cases hn hr hs with
    ⟨-, rfl⟩ | ⟨op, e, -, -, rfl⟩ | ⟨op, i, -, -, -, ⟨u, rfl, -, hc⟩ | ⟨x, -, rfl⟩ | ⟨c, rfl⟩⟩ <;>
    rw [endCycle_runState] at ht
  · exact endCycle_timers_of_not_running _ ht
  · rcases execUnallocated_cases op s.takeTransaction.markStarted with ⟨-, hu⟩ | ⟨-, hu⟩ <;> rw [hu] at ht ⊢
    · exact absurd hr ht
    · exact endCycle_timers_of_not_running _ ht
  · exact absurd (hc.runState.trans hr) ht
  · exact endCycle_timers_of_not_running _ ht
  · exact endCycle_timers_of_not_running _ ht

/-- A step that runs no instruction, completes no wait and is no reset leaves the timers. -/
theorem timers_of_step_other (hs : step s = .next t) (hn : ¬ (s.nextTransaction = .cycle ∧ s.runState = .running))
    (hpress : ¬ ∃ k x, s.nextTransaction = .keyEvent k true ∧ s.runState = .awaitingKey x)
    (hreset : s.nextTransaction ≠ .reset) : t.dt = s.dt ∧ t.st = s.st := by
  rcases step_other_cases hs hn with ⟨-, r, rfl⟩ | ⟨k, b, hk, rfl⟩ | ⟨image, -, rfl⟩ | ⟨-, rfl⟩ | ⟨hr, -⟩
  · exact ⟨rfl, rfl⟩
  · rcases keyEvent_cases k b s.takeTransaction with ⟨x, hx, rfl, -⟩ | ⟨-, he⟩
    · exact absurd ⟨k, x, hk, hx⟩ hpress
    · rw [he]
      exact ⟨rfl, rfl⟩
  · rcases loadProgram_cases image s.takeTransaction with ⟨r, he⟩ | ⟨-, -, -, he⟩ <;> rw [he] <;> simp
  · exact ⟨rfl, rfl⟩
  · exact absurd hr hreset

/-- A press that completes a wait, as one step. -/
theorem step_of_completing_press {k : KeyIdx} {x : RegIdx} (hn : s.nextTransaction = .keyEvent k true)
    (hx : s.runState = .awaitingKey x) : step s = .next (((((s.takeTransaction.setKey k true).setReg x
      (BitVec.ofNat 8 k.val)).advance.setRunState .running).tick).answer .done) := by
  rw [step_of_issued hn]
  exact congrArg _ (keyEvent_of_awaiting (s := s.takeTransaction) hx k)

end

end Sys2Proof.Machine

namespace Sys2Proof.Proofs

open Sys2Proof.Machine

/-- Settles O12, by what the step issued: a cycle that completes, a press that completes a wait, anything else. -/
theorem timersTickOncePerCompletedCycle : Obligations.TimersTickOncePerCompletedCycle := by
  refine fun s t hs => ⟨fun op hn hr hf ht => ?_, fun k x hn hx => ?_, fun hnot hpress hreset => ?_⟩
  · obtain ⟨op', hf', hcases⟩ := timers_of_completed hn hr hs ht
    obtain rfl : op = op' := Option.some.inj (hf.symm.trans hf')
    rcases hcases with ⟨e, hd, hdt, hst⟩ | ⟨i, hd, hdt, hst⟩ <;> rw [hd, hdt, hst, countDown_toNat, countDown_toNat]
    · exact ⟨rfl, rfl⟩
    · cases i <;> exact ⟨rfl, rfl⟩
  · rw [step_of_completing_press hn hx] at hs
    rw [← Host.Outcome.next.inj hs]
    exact ⟨countDown_toNat s.dt, countDown_toNat s.st⟩
  · by_cases hn : s.nextTransaction = .cycle ∧ s.runState = .running
    · exact timers_of_not_completed hn.1 hn.2 hs fun ht => hnot ⟨hn.1, hn.2, ht⟩
    · exact timers_of_step_other hs hn hpress hreset

end Sys2Proof.Proofs
end

section
/-! O14, O15, O16: key events, program loads and `ClearDirty`, each as one step with its frame (R108, R109, R111). -/

namespace Sys2Proof.Machine

section

variable {s : State}

theorem setKey_onlyChanges (s : State) (k : KeyIdx) (b : Bool) : OnlyChanges (fun p => p = .key k) s (s.setKey k b) := by
  intro p hp
  cases p with
  | key j => exact (setKey_get s k j b).trans (if_neg fun e => hp (congrArg Part.key e))
  | _ => rfl

theorem clearDirtyFlag_onlyChanges (s : State) : OnlyChanges (fun p => p = .dirty) s s.clearDirtyFlag := by
  intro p hp
  cases p with
  | dirty => exact absurd rfl hp
  | _ => rfl

/-- What surrounds a transaction changes the schedule and the outputs only. -/
theorem OnlyChanges.ofTransaction {A : Part → Prop} {u : State} (h : OnlyChanges A s.takeTransaction u) (r : Reply) :
    OnlyChanges (fun p => A p ∨ p.issuing) s (u.answer r) := by
  refine (((takeTransaction_onlyChanges s).andThen h).andThen (answer_onlyChanges u r)).mono ?_
  rintro p (((rfl | rfl) | hp) | rfl)
  · exact .inr (.inl rfl)
  · exact .inr (.inr (.inr rfl))
  · exact .inl hp
  · exact .inr (.inr (.inl rfl))

/-- A key event leaves its key as it says, whether it completes a wait or not. -/
theorem keyEvent_key_get (k : KeyIdx) (b : Bool) (s : State) : (keyEvent k b s).key.get k = b := by
  rcases keyEvent_cases k b s with ⟨x, -, rfl, he⟩ | ⟨-, he⟩ <;> rw [he] <;> simp

/-- A completing press changes its key, the waiting register, `pc`, the run state and the timers. -/
theorem completingPress_onlyChanges (s : State) (k : KeyIdx) (x : RegIdx) (b : Byte) :
    OnlyChanges (fun p => p = .key k ∨ p = .reg x ∨ p = .pc ∨ p = .runState ∨ p = .dt ∨ p = .st) s
      (((s.setKey k true).setReg x b).advance.setRunState .running).tick := by
  refine ((((setKey_onlyChanges s k true).andThen (setReg_advance_onlyChanges _ x b)).andThen
    (setRunState_onlyChanges _ _)).andThen (tick_onlyChanges _)).mono ?_
  rintro p (((rfl | rfl | rfl) | rfl) | rfl | rfl) <;> simp

/-- The index of a key as the byte a register receives. -/
theorem keyByte_toNat (k : KeyIdx) : (BitVec.ofNat 8 k.val).toNat = k.val :=
  Nat.mod_eq_of_lt (Nat.lt_trans k.isLt (by decide))

end

end Sys2Proof.Machine

namespace Sys2Proof.Proofs

open Sys2Proof.Machine

/-- Settles O14: the two cases of a key event, each a chain of operations. -/
theorem keyEventSetsKeyAndCompletesWait : Obligations.KeyEventSetsKeyAndCompletesWait := by
  intro s k pressed hn
  refine ⟨_, step_of_issued hn, keyEvent_key_get k pressed _, fun x hx hp => ?_, fun hc => ?_⟩
  · subst hp
    rw [keyEvent_of_awaiting (s := s.takeTransaction) hx]
    refine ⟨?_, rfl, rfl, countDown_toNat s.dt, countDown_toNat s.st, ?_⟩
    · simp only [answer_reg, tick_reg, setRunState_reg, advance_eq, jump_reg, setReg_reg, if_true]
      exact keyByte_toNat k
    · refine (OnlyChanges.ofTransaction (completingPress_onlyChanges _ k x _) .done).mono ?_
      simp only [or_assoc]
      exact fun _ => id
  · rw [keyEvent_of_not_awaiting (s := s.takeTransaction) hc]
    exact (setKey_onlyChanges _ k pressed).ofTransaction .done

/-- Settles O15: the three outcomes of a load; a run of stores reads back as the image and leaves every other byte. -/
theorem loadProgramPlacesImageVerbatim : Obligations.LoadProgramPlacesImageVerbatim := by
  intro s image hn
  refine ⟨_, step_of_issued hn, fun h => ?_, fun h1 h2 h3 => ?_, fun h1 h2 h3 => ?_⟩
  · rw [loadProgram_of_refused (s := s.takeTransaction) image h]
    exact ⟨rfl, rfl⟩
  · rw [loadProgram_of_tooLarge (s := s.takeTransaction) h1 h2 h3]
    exact ⟨rfl, rfl⟩
  · rw [loadProgram_of_fits (s := s.takeTransaction) h1 h2 h3]
    exact ⟨rfl, fun j hj => writeBytes_readByte_stored _ programBase image hj,
      (writeBytes_onlyChanges _ programBase image).ofTransaction .ok⟩

/-- Settles O16: no run state is looked at, and one flag is written. -/
theorem clearDirtyClearsOnlyTheFlag : Obligations.ClearDirtyClearsOnlyTheFlag :=
  fun s hn => ⟨_, step_of_issued hn, rfl, (clearDirtyFlag_onlyChanges s.takeTransaction).ofTransaction .done⟩

end Sys2Proof.Proofs
end

section
/-! O6, O13, O17: the cycle of a running core that decodes, the cycle of a waiting one, and reset (R101 to R103, R112,
R240, R250). -/

namespace Sys2Proof.Laws

/-- A byte string of two bytes decodes as the opcode they make. -/
theorem decodeWord_of_decode_pair {hi lo : Byte} {i : Instr} (h : decode [hi, lo] = .ok (i, [])) :
    decodeWord (bigEndian hi lo) = .ok i := by
  cases hd : decodeWord (bigEndian hi lo) with
  | ok j => simpa [decode, hd] using h
  | error e => simp [decode, hd] at h

end Sys2Proof.Laws

namespace Sys2Proof.Machine

section

variable {s : State}

theorem aboutToRun_of_decode {i : Instr} (hn : s.nextTransaction = .cycle) (hr : s.runState = .running)
    (hpc : s.pc.toNat + 1 ≤ 0xFFF)
    (hd : decode [s.readByte s.pc.toNat, s.readByte (s.pc.toNat + 1)] = .ok (i, [])) : s.aboutToRun i :=
  ⟨hn, hr, _, fetch_eq_some s hpc, Laws.decodeWord_of_decode_pair hd⟩

theorem readByte_of_reset (h : s.toArch = Arch.reset) (a : Nat) : s.readByte a = resetByte s.params a := by
  rw [State.readByte, h]
  rfl

/-- A core with the reset values is as rule R250 lists it, whatever its parameters. -/
theorem atReset_of_arch (h : s.toArch = Arch.reset) : AtReset s where
  regs r := by simp [State.reg, h, Arch.reset, Vector.get_eq_getElem]
  pc := by rw [h]; rfl
  i := by rw [h]; rfl
  sp := by rw [h]; rfl
  stack j := by simp [h, Arch.reset, Vector.get_eq_getElem]
  dt := by rw [h]; rfl
  st := by rw [h]; rfl
  audible := by rw [h]; rfl
  font a := (readByte_of_reset h a.val).trans (dif_pos a.isLt)
  zeros a ha := (readByte_of_reset h a).trans (dif_neg (Nat.not_lt.2 ha))
  cells y x := by simp [State.cell, h, Arch.reset, Vector.get_eq_getElem]
  keys k := by simp [h, Arch.reset, Vector.get_eq_getElem]
  dirty := by rw [h]; rfl
  runState := by rw [h]; rfl
  started := by rw [h]; rfl

end

end Sys2Proof.Machine

namespace Sys2Proof.Proofs

open Sys2Proof.Machine

/-- Settles O6: the bytes at `pc` are what the fetch composes, and `endCycle` goes by the run state the instruction
leaves. -/
theorem stepRunsDecodedInstruction : Obligations.StepRunsDecodedInstruction := by
  intro s i hn hr hpc hd
  have hstep := step_of_aboutToRun (aboutToRun_of_decode hn hr hpc hd)
  refine ⟨hstep, fun t ht => ?_⟩
  have hend : step s = .next (endCycle t) := hstep.trans (congrArg endOutcome ht)
  refine ⟨fun h => ?_, fun x h => ?_, fun r h => ?_⟩
  · rw [hend, endCycle_of_running t h]
    rfl
  · rw [hend, endCycle_of_awaiting t h]
    rfl
  · rw [hend, endCycle_of_faulted t h]
    rfl

/-- Settles O13: the cycle of a waiting core is its answer. -/
theorem waitingCycleChangesNothing : Obligations.WaitingCycleChangesNothing :=
  fun s _ hn hx => ⟨_, (step_of_cycle hn).trans (cycle_of_awaiting (s := s.takeTransaction) hx), rfl, rfl⟩

/-- Settles O17: power-on and `Reset` both leave `Arch.reset`. -/
theorem resetEstablishesInitialState : Obligations.ResetEstablishesInitialState :=
  ⟨atReset_of_arch rfl, fun _ hn => ⟨_, step_of_issued hn, atReset_of_arch rfl⟩⟩

end Sys2Proof.Proofs
end

section
/-! O19 to O23: jumps, the call stack and the register skips (41_control_flow.md R120 to R127). A call and a return are
said by the stack entry they use, so that a return meets its call at that entry; a frame is the chain of the frames of
the operations. -/

namespace Sys2Proof.Machine

section

variable (s : State) (nnn : Word)

/-- The address Bnnn computes never wraps: it is at most 0xFFF + 0xFF (R123). -/
theorem jpV0_target_toNat (h : nnn.toNat < 0x1000) :
    ((s.reg 0).zeroExtend 16 + nnn).toNat = (s.reg 0).toNat + nnn.toNat := by
  have hreg : ((s.reg 0).zeroExtend 16).toNat = (s.reg 0).toNat :=
    BitVec.toNat_setWidth_of_le (by decide)
  rw [BitVec.toNat_add, hreg, Nat.mod_eq_of_lt (by omega)]

/-- A call pushes into the entry that `sp` names. -/
theorem exec_call_of_top {j : Fin 16} (hj : s.sp = j.castSucc) :
    exec (.call nnn) s = .next { s with stack := s.stack.set j.val s.pc j.isLt, sp := j.succ, pc := nnn } := by
  have hval : s.sp.val = j.val := congrArg Fin.val hj
  simp [exec_call_of_lt s nnn (hval ▸ j.isLt), hval, Fin.succ]

/-- A return continues after the address in the entry below `sp`. -/
theorem exec_ret_of_top {j : Fin 16} (hj : s.sp = j.succ) :
    exec .ret s = .next { s with sp := j.castSucc, pc := s.stack.get j + 2 } := by
  simp [exec, execRet, Proofs.pop_of_top (congrArg Fin.val hj) (k := j.castSucc) rfl, State.jump]

theorem called_onlyChanges (j : Fin 16) (k : Fin 17) (a : Word) :
    OnlyChanges (fun p => p = .stackEntry j ∨ p = .sp ∨ p = .pc) s
      { s with stack := s.stack.set j.val a j.isLt, sp := k, pc := nnn } :=
  ((pushed_onlyChanges s a j k).andThen (jump_onlyChanges _ nnn)).mono fun _ hp => or_assoc.1 hp

/-- An instruction that is a skip advances `pc` by 4 or by 2, as its comparison says, and changes nothing else. -/
theorem skip_of_exec {i : Instr} {b : Bool} {P Q : Prop} (h : exec i s = .next (s.skipIf b))
    (hP : b = true ↔ P) (hQ : b = false ↔ Q) :
    ∃ t, exec i s = .next t ∧ (P → t.pc = s.pc + 4) ∧ (Q → t.pc = s.pc + 2) ∧
      OnlyChanges (fun p => p = .pc) s t := by
  refine ⟨_, h, fun p => ?_, fun q => ?_, jump_onlyChanges s _⟩
  · simp [hP.2 p]
  · simp [hQ.2 q]

end

end Sys2Proof.Machine

namespace Sys2Proof.Proofs

open Sys2Proof.Machine

/-- Settles O22: the return pops the entry that the call wrote. -/
theorem returnResumesAfterItsCall : Obligations.ReturnResumesAfterItsCall := by
  intro s nnn hlt
  obtain ⟨j, hj⟩ : ∃ j : Fin 16, s.sp = j.castSucc := ⟨⟨s.sp.val, hlt⟩, rfl⟩
  refine ⟨_, exec_call_of_top s nnn hj, fun u hsp hstack => ⟨_, exec_ret_of_top u hsp, ?_, hj.symm⟩⟩
  have hentry : u.stack.get j = s.pc := by simp [hstack]
  exact congrArg (· + 2) hentry

/-- Settles O19: both are one jump, and the target of Bnnn does not wrap. -/
theorem jumpsSetOnlyPc : Obligations.JumpsSetOnlyPc := fun s nnn hn =>
  ⟨⟨_, exec_jp s nnn, rfl, jump_onlyChanges s _⟩,
    ⟨_, exec_jpV0 s nnn, jpV0_target_toNat s nnn hn, jump_onlyChanges s _⟩⟩

/-- Settles O20, by the two cases of a push. -/
theorem callPushesItsAddress : Obligations.CallPushesItsAddress := by
  refine fun s nnn => ⟨fun j hj => ?_, fun hfull => ?_⟩
  · refine ⟨_, exec_call_of_top s nnn (Fin.ext hj.symm), ?_, congrArg (· + 1) hj, rfl,
      called_onlyChanges s nnn j _ _⟩
    simp
  · exact ⟨_, exec_call_of_full s nnn hfull, rfl, raiseFault_onlyChanges s _⟩

/-- Settles O21, by the two cases of a pop. -/
theorem returnPopsAndAdvances : Obligations.ReturnPopsAndAdvances := by
  refine fun s => ⟨fun j hj => ?_, fun hempty => ?_⟩
  · exact ⟨_, exec_ret_of_top s (Fin.ext hj.symm), rfl, BitVec.toNat_add _ _,
      returned_onlyChanges s _ _⟩
  · exact ⟨_, exec_ret_of_empty s hempty, rfl, raiseFault_onlyChanges s _⟩

/-- Settles O23: each is a skip by its comparison. -/
theorem skipsFollowComparison : Obligations.SkipsFollowComparison := fun s x y kk n =>
  ⟨skip_of_exec s (exec_seImm s x kk) beq_iff_eq beq_eq_false_iff_ne,
    skip_of_exec s (exec_sneImm s x kk) bne_iff_ne bne_eq_false_iff_eq,
    skip_of_exec s (exec_seReg s x y n) beq_iff_eq beq_eq_false_iff_ne,
    skip_of_exec s (exec_sneReg s x y n) bne_iff_ne bne_eq_false_iff_eq⟩

end Sys2Proof.Proofs
end

section
/-! O24 to O30: the register ALU (42_alu.md R140 to R161). Every instruction stores one result, or a result and then a
flag; what the stored bytes are as numbers or bits is said once per operation. -/

namespace Sys2Proof.Machine

/-! ### Flags as numbers (R141) -/

section

variable (a b : Byte)

theorem carryFlag_toNat : (carryFlag a b).toNat = if 255 < a.toNat + b.toNat then 1 else 0 := by
  unfold carryFlag flagByte
  by_cases h : 255 < a.toNat + b.toNat <;> simp [h]

theorem noBorrowFlag_toNat : (noBorrowFlag a b).toNat = if a.toNat < b.toNat then 0 else 1 := by
  unfold noBorrowFlag flagByte
  by_cases h : a.toNat < b.toNat <;> simp [h]

theorem shiftedOutRight_toNat : (shiftedOutRight a).toNat = a.toNat % 2 :=
  (BitVec.toNat_and a 1).trans (Nat.and_one_is_mod _)

theorem shiftedOutLeft_toNat : (shiftedOutLeft a).toNat = a.toNat / 128 :=
  (BitVec.toNat_ushiftRight a 7).trans (Nat.shiftRight_eq_div_pow _ 7)

/-! ### Results as numbers -/

/-- A difference of bytes is the exact difference reduced mod 256, not truncated at 0 (R149, R151). -/
theorem byte_sub_toNat_cast : ((a - b).toNat : Int) = (a.toNat - b.toNat : Int) % 2 ^ 8 := by
  have hb : b.toNat < 2 ^ 8 := b.isLt
  rw [BitVec.toNat_sub]
  omega

theorem byte_shiftRight_one_toNat : (a >>> 1).toNat = a.toNat / 2 :=
  (BitVec.toNat_ushiftRight a 1).trans (Nat.shiftRight_eq_div_pow _ 1)

theorem byte_shiftLeft_one_toNat : (a <<< 1).toNat = a.toNat * 2 % 2 ^ 8 := by
  rw [BitVec.toNat_shiftLeft, Nat.shiftLeft_eq, pow_one]

end

/-! ### What the two shapes of an ALU instruction leave -/

section

variable (s : State) (x : RegIdx) (b f : Byte)

theorem setReg_advance_reg : (s.setReg x b).advance.reg x = b := by simp

/-- The destination of a flag operation holds the result, unless the flag overwrites it (R140). -/
theorem setRegFlag_advance_reg (hx : x ≠ vf) : (s.setRegFlag x b f).advance.reg x = b := by simp [hx]

/-- The flag is written last, so VF holds it whatever the destination is (R140). -/
theorem setRegFlag_advance_vf : (s.setRegFlag x b f).advance.reg vf = f := by simp

end

/-- An instruction that stores `m - b` and its flag leaves the difference mod 256 and the no-borrow flag, whichever
operand is the minuend `m`. -/
theorem subtraction_of_exec {s : State} {i : Instr} {x : RegIdx} {m b : Byte}
    (h : exec i s = .next (s.setRegFlag x (m - b) (noBorrowFlag m b)).advance) :
    ∃ t, exec i s = .next t ∧ (x ≠ vf → ((t.reg x).toNat : Int) = (m.toNat - b.toNat : Int) % 2 ^ 8) ∧
      (t.reg vf).toNat = (if m.toNat < b.toNat then 0 else 1) ∧ t.pc = s.pc + 2 ∧
      OnlyChanges (fun p => p = .reg x ∨ p = .reg vf ∨ p = .pc) s t := by
  refine ⟨_, h, fun hx => ?_, ?_, rfl, setRegFlag_advance_onlyChanges s x _ _⟩
  · rw [setRegFlag_advance_reg s x _ _ hx, byte_sub_toNat_cast]
  · rw [setRegFlag_advance_vf, noBorrowFlag_toNat]

end Sys2Proof.Machine

namespace Sys2Proof.Proofs

open Sys2Proof.Machine

/-- Settles O24: each stores one byte and advances. -/
theorem loadsWriteOnlyTheirRegister : Obligations.LoadsWriteOnlyTheirRegister := fun s x y kk =>
  ⟨⟨_, exec_ldImm s x kk, setReg_advance_reg s x _, rfl, setReg_advance_onlyChanges s x _⟩,
    ⟨_, exec_ldReg s x y, setReg_advance_reg s x _, rfl, setReg_advance_onlyChanges s x _⟩⟩

/-- Settles O25: the stored byte is the `BitVec` sum, which wraps. -/
theorem addImmediateWrapsWithoutFlag : Obligations.AddImmediateWrapsWithoutFlag := by
  refine fun s x kk => ⟨_, exec_addImm s x kk, ?_, rfl, setReg_advance_onlyChanges s x _⟩
  rw [setReg_advance_reg, BitVec.toNat_add]

/-- Settles O26: the stored byte, bit by bit. -/
theorem logicIsBitwiseWithoutFlag : Obligations.LogicIsBitwiseWithoutFlag := by
  refine fun s x y =>
    ⟨⟨_, exec_orReg s x y, fun b => ?_, rfl, setReg_advance_onlyChanges s x _⟩,
      ⟨_, exec_andReg s x y, fun b => ?_, rfl, setReg_advance_onlyChanges s x _⟩,
      ⟨_, exec_xorReg s x y, fun b => ?_, rfl, setReg_advance_onlyChanges s x _⟩⟩
  · rw [setReg_advance_reg, BitVec.getLsbD_or]
  · rw [setReg_advance_reg, BitVec.getLsbD_and]
  · rw [setReg_advance_reg, BitVec.getLsbD_xor]

/-- Settles O27: the sum unless VF overwrites it, and the carry in VF. -/
theorem addLeavesCarryInVF : Obligations.AddLeavesCarryInVF := by
  refine fun s x y => ⟨_, exec_addReg s x y, fun hx => ?_, ?_, rfl, setRegFlag_advance_onlyChanges s x _ _⟩
  · rw [setRegFlag_advance_reg s x _ _ hx, BitVec.toNat_add]
  · rw [setRegFlag_advance_vf, carryFlag_toNat]

/-- Settles O28: one subtraction, with its operands either way round. -/
theorem subtractionsLeaveNoBorrowInVF : Obligations.SubtractionsLeaveNoBorrowInVF := fun s x y =>
  ⟨subtraction_of_exec (exec_subReg s x y), subtraction_of_exec (exec_subnReg s x y)⟩

/-- Settles O29: the shifted byte unless VF overwrites it, and the lost bit in VF. -/
theorem shiftsLeaveLostBitInVF : Obligations.ShiftsLeaveLostBitInVF := by
  refine fun s x y =>
    ⟨⟨_, exec_shr s x y, fun hx => ?_, ?_, rfl, setRegFlag_advance_onlyChanges s x _ _⟩,
      ⟨_, exec_shl s x y, fun hx => ?_, ?_, rfl, setRegFlag_advance_onlyChanges s x _ _⟩⟩
  · rw [setRegFlag_advance_reg s x _ _ hx, byte_shiftRight_one_toNat]
  · rw [setRegFlag_advance_vf, shiftedOutRight_toNat]
  · rw [setRegFlag_advance_reg s x _ _ hx, byte_shiftLeft_one_toNat]
  · rw [setRegFlag_advance_vf, shiftedOutLeft_toNat]

/-- Settles O30: the draw is taken and its mask stored; the frame is the footprint of Cxkk. -/
theorem randomIsTheMaskedDraw : Obligations.RandomIsTheMaskedDraw := fun s x kk =>
  ⟨_, exec_rnd s x kk, setReg_advance_reg _ x _, rfl, rfl,
    instructionChangesOnlyItsFootprint (.rnd x kk) s _ (exec_rnd s x kk)⟩

end Sys2Proof.Proofs
end

section
/-! O32 to O34: the display (43_display.md R170 to R173). A draw flips the cells its sprite lands on, so a second draw
with the same operands flips the same cells back. -/

namespace Sys2Proof.Machine

section

variable (s : State) (x y : RegIdx) (n : Nat)

theorem drawnState_onlyChanges :
    OnlyChanges (fun p => (∃ Y X, p = .cell Y X) ∨ p = .reg vf ∨ p = .dirty ∨ p = .pc) s (drawnState s x y n) := by
  refine ((setScreen_onlyChanges s _).andThen (setReg_advance_onlyChanges _ vf _)).mono ?_
  rintro p ((hp | hp) | hp | hp)
  · exact .inl hp
  · exact .inr (.inr (.inl hp))
  · exact .inr (.inl hp)
  · exact .inr (.inr (.inr hp))

theorem drawnState_vf_eq_one_iff :
    (drawnState s x y n).reg vf = 1 ↔ ∃ Y X, spriteDraws s x y n Y X ∧ s.cell Y X = true := by
  obtain ⟨hhit, hmiss⟩ := drawnState_vf s x y n
  refine ⟨fun h => ?_, hhit⟩
  by_contra hno
  exact absurd ((hmiss hno).symm.trans h) (by decide)

/-- A draw sets exactly the clear cells it lands on: of the cells it lands on, those that are set after it. -/
theorem set_by_draw_iff (Y : Fin 32) (X : Fin 64) :
    (s.cell Y X = false ∧ (drawnState s x y n).cell Y X = true) ↔
      (spriteDraws s x y n Y X ∧ (drawnState s x y n).cell Y X = true) := by
  obtain ⟨hflip, hkeep⟩ := drawnState_cell s x y n Y X
  by_cases hd : spriteDraws s x y n Y X
  · simp [hd, hflip hd]
  · simp [hd, hkeep hd]

variable {x y} (hx : x ≠ vf) (hy : y ≠ vf)
include hx hy

/-- A draw leaves the sprite and, outside VF, the coordinates, so the next one lands on the same cells. -/
theorem spriteDraws_drawnState (Y : Fin 32) (X : Fin 64) :
    spriteDraws (drawnState s x y n) x y n Y X ↔ spriteDraws s x y n Y X := by
  have hother : ∀ r, r ≠ vf → (drawnState s x y n).reg r = s.reg r := fun r hr => by simp [drawnState, hr]
  unfold spriteDraws
  rw [hother x hx, hother y hy]
  rfl

theorem drawnState_twice_gfx : (drawnState (drawnState s x y n) x y n).gfx = s.gfx := by
  refine Gfx.ext fun Y X => ?_
  change (drawnState (drawnState s x y n) x y n).cell Y X = s.cell Y X
  obtain ⟨hflip, hkeep⟩ := drawnState_cell s x y n Y X
  obtain ⟨hflip', hkeep'⟩ := drawnState_cell (drawnState s x y n) x y n Y X
  rw [spriteDraws_drawnState s n hx hy] at hflip' hkeep'
  by_cases hd : spriteDraws s x y n Y X
  · rw [hflip' hd, hflip hd, Bool.not_not]
  · rw [hkeep' hd, hkeep hd]

end

end Sys2Proof.Machine

namespace Sys2Proof.Proofs

open Sys2Proof.Machine

/-- Settles O32, by the two cases of the sprite's addresses. -/
theorem drawFlipsCellsAndReportsCollision : Obligations.DrawFlipsCellsAndReportsCollision := by
  refine fun s x y n => ⟨fun hin => ?_, fun h0 hout => ?_⟩
  · obtain ⟨hhit, hmiss⟩ := drawnState_vf s x y n
    exact ⟨_, exec_drw_of_inside s x y n hin, fun Y X => (drawnState_cell s x y n Y X).1,
      fun Y X => (drawnState_cell s x y n Y X).2, hhit, hmiss, rfl, rfl, drawnState_onlyChanges s x y n⟩
  · exact ⟨_, exec_drw_of_outside s x y n h0 hout, rfl, raiseFault_onlyChanges s _⟩

/-- Settles O33: the second draw lands on the cells of the first, and meets a set one where the first set it. -/
theorem drawingTwiceRestoresTheScreen : Obligations.DrawingTwiceRestoresTheScreen := by
  refine fun s x y n hx hy hin => ⟨_, _, exec_drw_of_inside s x y n hin,
    exec_drw_of_inside (drawnState s x y n) x y n hin, drawnState_twice_gfx s n hx hy, ?_⟩
  simp only [drawnState_vf_eq_one_iff, spriteDraws_drawnState s n hx hy, set_by_draw_iff]

/-- Settles O34: the new screen is clear, and the frame is the footprint of 00E0. -/
theorem clearScreenClearsEveryCell : Obligations.ClearScreenClearsEveryCell := by
  refine fun s => ⟨_, exec_cls s, fun y x => ?_, rfl, rfl, instructionChangesOnlyItsFootprint .cls s _ (exec_cls s)⟩
  simp [Vector.get_eq_getElem]

end Sys2Proof.Proofs
end

section
/-! O35 to O41: timers, index and memory (44_index_memory_timers.md R180 to R188). What a run of stores from `I` that
fits in memory leaves is said once, for the digits of Fx33 and the registers of Fx55 alike; one that does not fit
faults as every access does. -/

namespace Sys2Proof.Machine

section

variable (s : State)

/-! ### Stores from `I` that fit in memory -/

section

variable {bytes : List Byte} (h : s.i.toNat + bytes.length ≤ memSize)
include h

theorem storeAtI_pc_of_inside : (storeAtI bytes s).pc = s.pc + 2 := by
  rw [storeAtI_of_inside s h, jump_pc]

theorem storeAtI_i_of_inside : (storeAtI bytes s).i = s.i := by
  rw [storeAtI_of_inside s h, jump_i, writeBytes_i]

theorem storeAtI_readByte_of_inside {k : Nat} (hk : k < bytes.length) :
    (storeAtI bytes s).readByte (s.addrAt k) = bytes[k] := by
  rw [storeAtI_of_inside s h, jump_readByte]
  exact writeBytes_readByte_stored s (s.addrAt 0) bytes hk

theorem storeAtI_onlyChanges_of_inside :
    OnlyChanges (fun p => storedByte s bytes.length p ∨ p = .pc) s (storeAtI bytes s) := by
  rw [storeAtI_of_inside s h]
  exact (writeBytes_onlyChanges s _ bytes).andThen (jump_onlyChanges _ _)

end

/-- The run that Fx55 stores holds `V[r]` at `I + r`. -/
theorem storeAtI_regRun_readByte {x r : RegIdx} (h : s.i.toNat + runLength x ≤ memSize) (hr : r ≤ x) :
    (storeAtI (s.regRun x) s).readByte (s.addrAt r.val) = s.reg r := by
  rw [← regRun_length s x] at h
  have hk : r.val < (s.regRun x).length := by
    rw [regRun_length]
    exact Nat.lt_succ_of_le hr
  rw [storeAtI_readByte_of_inside s h hk, regRun_getElem]

/-- An access that leaves memory faults at its lowest failing address and changes nothing else (R56, R225). -/
theorem faults_of_outside (i : Instr) (h0 : 0 < accessCount i) (h : memSize < s.i.toNat + accessCount i) :
    ∃ t, exec i s = .next t ∧ t.runState = .faulted ⟨.memoryOutOfBounds (max s.i.toNat memSize), s.pc⟩ ∧
      OnlyChanges (fun p => p = .runState) s t :=
  ⟨_, exec_of_outside s i h0 h, rfl, raiseFault_onlyChanges s _⟩

/-! ### Numbers -/

/-- The stored bytes are the decimal digits themselves: each fits a byte (R186). -/
theorem bcdDigits_toNat (b : Byte) : ((bcdDigits b)[0]'(Nat.succ_pos 2)).toNat = b.toNat / 100 ∧
    ((bcdDigits b)[1]'(Nat.one_lt_succ_succ 1)).toNat = b.toNat / 10 % 10 ∧
    ((bcdDigits b)[2]'(Nat.lt_succ_self 2)).toNat = b.toNat % 10 := by
  have hb := b.isLt
  exact ⟨Nat.mod_eq_of_lt (by omega), Nat.mod_eq_of_lt (by omega), Nat.mod_eq_of_lt (by omega)⟩

theorem zeroExtend_byte_toNat (b : Byte) : (b.zeroExtend 16).toNat = b.toNat :=
  BitVec.toNat_setWidth_of_le (by decide)

/-- The address of a glyph, five bytes a digit (R185). -/
theorem glyphAddress_toNat {b : Byte} (h : b.toNat ≤ 0xF) : (b.zeroExtend 16 * 5).toNat = b.toNat * 5 := by
  rw [BitVec.toNat_mul, zeroExtend_byte_toNat]
  exact Nat.mod_eq_of_lt (by simp; omega)

/-! ### The tick after the instruction -/

theorem endCycle_reg (r : RegIdx) : (endCycle s).reg r = s.reg r :=
  congrArg (Vector.get · r) (endCycle_v s)

section

variable {s} (h : s.runState = .running)
include h

theorem endCycle_dt_toNat : (endCycle s).dt.toNat = s.dt.toNat - 1 := by
  rw [(endCycle_timers_of_running s h).1, countDown_toNat]

theorem endCycle_st_toNat : (endCycle s).st.toNat = s.st.toNat - 1 := by
  rw [(endCycle_timers_of_running s h).2, countDown_toNat]

/-- The sound is on after the tick iff the timer stood at 2 or more before it (R29, R182). -/
theorem endCycle_audible_iff : (endCycle s).audible = true ↔ 2 ≤ s.st.toNat := by
  rw [audible_iff, endCycle_st_toNat h]
  omega

end

end

end Sys2Proof.Machine

namespace Sys2Proof.Proofs

open Sys2Proof.Machine

/-- Settles O38: the three stored bytes are the decimal digits, or the access leaves memory. -/
theorem bcdStoresDecimalDigits : Obligations.BcdStoresDecimalDigits := by
  refine fun s x => ⟨fun h => ?_, faults_of_outside s (.ldBVx x) (Nat.succ_pos _)⟩
  have hin : s.i.toNat + (bcdDigits (s.reg x)).length ≤ memSize := h
  have hread (k : Nat) (hk : k < 3) := storeAtI_readByte_of_inside s hin hk
  obtain ⟨h100, h10, h1⟩ := bcdDigits_toNat (s.reg x)
  rw [← hread 0 (by decide)] at h100
  rw [← hread 1 (by decide)] at h10
  rw [← hread 2 (by decide)] at h1
  exact ⟨_, exec_ldBVx s x, h100, h10, h1, by omega, storeAtI_pc_of_inside s hin, storeAtI_onlyChanges_of_inside s hin⟩

/-- Settles O39: the run of stores reads back register by register, or the access leaves memory. -/
theorem storeRegistersFromIndex : Obligations.StoreRegistersFromIndex := by
  refine fun s x => ⟨fun h => ?_, faults_of_outside s (.storeRegs x) (Nat.succ_pos _)⟩
  have hin : s.i.toNat + (s.regRun x).length ≤ memSize := (regRun_length s x).symm ▸ h
  have hframe := storeAtI_onlyChanges_of_inside s hin
  rw [regRun_length] at hframe
  exact ⟨_, exec_storeRegs s x, fun r => storeAtI_regRun_readByte s h, storeAtI_pc_of_inside s hin, hframe⟩

/-- Settles O40: the run of loads, or the access leaves memory. -/
theorem loadRegistersFromIndex : Obligations.LoadRegistersFromIndex := by
  refine fun s x => ⟨fun h => ?_, faults_of_outside s (.loadRegs x) (Nat.succ_pos _)⟩
  refine ⟨_, exec_loadRegs_of_inside s x h, fun r hr => ?_, rfl,
    (loadRegRun_onlyChanges s x).andThen (jump_onlyChanges _ _)⟩
  exact (loadRegRun_reg s x r).trans (if_pos hr)

/-- Settles O41: Fx65 reads the bytes that Fx55 wrote, from the same `I`. -/
theorem storedRegistersLoadBack : Obligations.StoredRegistersLoadBack := by
  refine fun s x h => ⟨storeAtI (s.regRun x) s, exec_storeRegs s x, fun v => ?_⟩
  have hi : (storeAtI (s.regRun x) s).i = s.i := storeAtI_i_of_inside s ((regRun_length s x).symm ▸ h)
  have hin : (storeAtI (s.regRun x) s).i.toNat + runLength x ≤ memSize := hi ▸ h
  refine ⟨_, exec_loadRegs_of_inside _ x hin, fun r hr => ?_, fun r hr => ?_⟩
  · have hload := (loadRegRun_reg { storeAtI (s.regRun x) s with v := v } x r).trans (if_pos hr)
    rw [State.addrAt, hi] at hload
    exact hload.trans (storeAtI_regRun_readByte s h hr)
  · exact (loadRegRun_reg _ x r).trans (if_neg (not_le_of_gt hr))

/-- Settles O35: each moves one byte, and the tick counts down what the instruction left. -/
theorem timerMovesAndTheirTick : Obligations.TimerMovesAndTheirTick := by
  refine fun s x =>
    ⟨⟨_, exec_ldVxDt s x, setReg_advance_reg s x _, rfl, setReg_advance_onlyChanges s x _, fun hr => ⟨?_, ?_⟩⟩,
      ⟨_, exec_ldDtVx s x, rfl, rfl, (setDt_onlyChanges s _).andThen (jump_onlyChanges _ _), fun hr => ?_⟩,
      ⟨_, exec_ldStVx s x, rfl, rfl, (setSt_onlyChanges s _).andThen (jump_onlyChanges _ _), fun hr => ⟨?_, ?_⟩⟩⟩
  · rw [endCycle_reg, setReg_advance_reg]
  · exact endCycle_dt_toNat hr
  · exact endCycle_dt_toNat hr
  · exact endCycle_st_toNat hr
  · exact endCycle_audible_iff hr

/-- Settles O36: the `BitVec` sum wraps mod 2^16. -/
theorem indexLoadAndAdd : Obligations.IndexLoadAndAdd := by
  refine fun s x nnn =>
    ⟨⟨_, exec_ldI s nnn, rfl, rfl, setI_advance_onlyChanges s _⟩,
      ⟨_, exec_addIVx s x, ?_, rfl, setI_advance_onlyChanges s _⟩⟩
  rw [advance_eq, jump_i, setI_i, BitVec.toNat_add, zeroExtend_byte_toNat]

/-- Settles O37, by whether the value is a digit. -/
theorem fontAddressOrFault : Obligations.FontAddressOrFault := fun s x =>
  ⟨fun h => ⟨_, exec_ldFVx_of_digit s x h, glyphAddress_toNat h, rfl, setI_advance_onlyChanges s _⟩,
    fun h => ⟨_, exec_ldFVx_of_large s x h, rfl, raiseFault_onlyChanges s _⟩⟩

end Sys2Proof.Proofs
end

section
/-! O44 and O45: the key skips and the wait for a key (45_keys.md R200 to R202). Fx0A changes the run state only; what a
later key event leaves of a waiting core is said once for any waiting core, then used at the Fx0A. -/

namespace Sys2Proof.Machine

section

variable {s : State}

/-- A release leaves the run state, of a waiting core too (R108). -/
theorem keyEvent_release_runState (k : KeyIdx) (s : State) : (keyEvent k false s).runState = s.runState := by
  rw [keyEvent_of_not_awaiting (.inr rfl), answer_runState, setKey_runState]

/-- The press that completes a wait leaves the key's index in the waiting register, whichever register that is. -/
theorem keyEvent_press_reg_toNat {x : RegIdx} (h : s.runState = .awaitingKey x) (k : KeyIdx) :
    ((keyEvent k true s).reg x).toNat = k.val := by
  have hreg : (keyEvent k true s).reg x = BitVec.ofNat 8 k.val := by
    rw [keyEvent_of_awaiting h]
    exact setReg_advance_reg (s.setKey k true) x _
  rw [hreg, keyByte_toNat]

/-- The press that completes a wait resumes the core after its Fx0A, with the timers ticked once. -/
theorem keyEvent_press_resumes {x : RegIdx} (h : s.runState = .awaitingKey x) (k : KeyIdx) :
    (keyEvent k true s).pc = s.pc + 2 ∧ (keyEvent k true s).runState = .running ∧
      (keyEvent k true s).dt.toNat = s.dt.toNat - 1 ∧ (keyEvent k true s).st.toNat = s.st.toNat - 1 := by
  rw [keyEvent_of_awaiting h]
  exact ⟨rfl, rfl, countDown_toNat s.dt, countDown_toNat s.st⟩

/-- Skipping when the key is not pressed swaps the two distances (R201). -/
theorem skipIf_not_pc (s : State) (b : Bool) : (s.skipIf (!b)).pc = s.pc + (if b = true then 2 else 4) := by
  cases b <;> rfl

end

end Sys2Proof.Machine

namespace Sys2Proof.Proofs

open Sys2Proof.Machine

/-- Settles O45: the core the Fx0A leaves is a waiting one, and a key event does to it what it does to any. -/
theorem waitForKeySuspendsThenStoresKey : Obligations.WaitForKeySuspendsThenStoresKey := by
  intro s x
  have hwait : (s.setRunState (.awaitingKey x)).runState = .awaitingKey x := rfl
  refine ⟨_, exec_ldVxK s x, hwait, setRunState_onlyChanges s _, endCycle_of_awaiting _ hwait,
    fun k => (keyEvent_release_runState k _).trans hwait, fun k => ?_⟩
  exact ⟨keyEvent_press_reg_toNat hwait k, keyEvent_key_get k true _, keyEvent_press_resumes hwait k⟩

/-- Settles O44, by whether the value names a key. -/
theorem keySkipsFollowTheBitmap : Obligations.KeySkipsFollowTheBitmap := by
  refine fun s x => ⟨fun k hk => ⟨?_, ?_⟩, fun hlarge => ⟨?_, ?_⟩⟩
  · exact ⟨_, exec_skp_of_key s x k hk, rfl, jump_onlyChanges s _⟩
  · exact ⟨_, exec_sknp_of_key s x k hk, skipIf_not_pc s _, jump_onlyChanges s _⟩
  · exact ⟨_, exec_skp_of_large s x hlarge, rfl, raiseFault_onlyChanges s _⟩
  · exact ⟨_, exec_sknp_of_large s x hlarge, rfl, raiseFault_onlyChanges s _⟩

end Sys2Proof.Proofs
end

section
/-! O9, O10, O11: every state has a next state, a fault is precise, and a faulted core is left by `Reset` only
(60_exceptions.md R230, R231). -/

namespace Sys2Proof.Machine

/-- The outcome is a next state. -/
def AnswersNext (o : Host.Outcome State Fault Refusal) : Prop := ∃ t, o = .next t

theorem exec_answersNext (i : Instr) (s : State) : AnswersNext (exec i s) := by
  obtain ⟨t, ht, -⟩ := exec_keepsToFootprint i s
  exact ⟨t, ht⟩

/-- Ending a cycle keeps an answer an answer. -/
theorem AnswersNext.endOutcome {o : Host.Outcome State Fault Refusal} (h : AnswersNext o) :
    AnswersNext (endOutcome o) := by
  obtain ⟨t, rfl⟩ := h
  exact ⟨endCycle t, rfl⟩

theorem cycle_answersNext (s : State) : AnswersNext (cycle s) := by
  cases hr : s.runState with
  | running =>
    rcases cycle_of_running s hr with ⟨-, hc⟩ | ⟨op, e, -, -, hc⟩ | ⟨op, i, -, -, hc⟩
    · exact ⟨_, hc⟩
    · exact ⟨_, hc⟩
    · rw [hc]
      exact (exec_answersNext i s.markStarted).endOutcome
  | awaitingKey x => exact ⟨_, cycle_of_awaiting hr⟩
  | faulted r => exact ⟨_, cycle_of_faulted hr⟩

/-- `Cycle` is the one transaction that can execute an instruction; the others answer by their definition. -/
theorem transact_answersNext (x : Transaction) (s : State) : AnswersNext (transact x s) := by
  cases x with
  | cycle => exact cycle_answersNext s
  | keyEvent k pressed => exact ⟨_, rfl⟩
  | loadProgram image => exact ⟨_, rfl⟩
  | clearDirty => exact ⟨_, rfl⟩
  | reset => exact ⟨_, rfl⟩

/-- A cycle of a running core that ends faulted took one fault: an instruction or a skipped opcode that completes
leaves the core running, and Fx0A leaves it waiting. -/
theorem step_raises_of_faulted {s t : State} {r : FaultRecord} (hn : s.nextTransaction = .cycle)
    (hr : s.runState = .running) (hs : step s = .next t) (ht : t.runState = .faulted r) :
    ∃ c, t = endCycle (raiseFault c s.takeTransaction.markStarted) := by
  rcases step_running_cases hn hr hs with
    ⟨-, rfl⟩ | ⟨op, e, -, -, rfl⟩ | ⟨op, i, -, -, -, ⟨u, rfl, -, hc⟩ | ⟨x, -, rfl⟩ | hfault⟩
  · exact ⟨_, rfl⟩
  · rw [endCycle_runState] at ht
    rcases execUnallocated_cases op s.takeTransaction.markStarted with ⟨-, hu⟩ | ⟨-, hu⟩ <;> rw [hu] at ht ⊢
    · exact nomatch hr.symm.trans ht
    · exact ⟨_, rfl⟩
  · rw [endCycle_runState, hc.runState] at ht
    exact nomatch hr.symm.trans ht
  · exact nomatch ht
  · exact hfault

/-- What each transaction leaves of a core that holds a fault record (R231). -/
def State.afterFaulted (s : State) (r : FaultRecord) : Transaction → State
  | .cycle => s.answer (.faulted r)
  | .keyEvent k pressed => (s.setKey k pressed).answer .done
  | .loadProgram _ => s.answer .refused
  | .clearDirty => clearDirty s
  | .reset => resetCore s

theorem transact_of_faulted {s : State} {r : FaultRecord} (h : s.runState = .faulted r) (x : Transaction) :
    transact x s = .next (s.afterFaulted r x) := by
  cases x with
  | cycle => exact cycle_of_faulted h
  | keyEvent k pressed => exact congrArg _ (keyEvent_of_not_awaiting (.inl fun _ => by simp [h]))
  | loadProgram image => exact congrArg _ (loadProgram_of_refused image (.inr (by simp [h])))
  | clearDirty => rfl
  | reset => rfl

theorem afterFaulted_runState {s : State} {r : FaultRecord} (h : s.runState = .faulted r) {x : Transaction}
    (hx : x ≠ .reset) : (s.afterFaulted r x).runState = .faulted r := by
  cases x with
  | reset => exact absurd rfl hx
  | _ => exact h

end Sys2Proof.Machine

namespace Sys2Proof.Proofs

open Sys2Proof.Machine

/-- Settles O9: whatever transaction a step issues answers a next state. -/
theorem stepAlwaysAnswersNext : Obligations.StepAlwaysAnswersNext :=
  fun s => transact_answersNext s.nextTransaction s.takeTransaction

/-- Settles O10: the cycle took one fault, whose record names `pc` and whose frame is that of every faulted cycle. -/
theorem faultChangesOnlyRunState : Obligations.FaultChangesOnlyRunState := by
  intro s t r hn hr hs ht
  obtain ⟨c, rfl⟩ := step_raises_of_faulted hn hr hs ht
  obtain rfl : ⟨c, s.pc⟩ = r := RunState.faulted.inj ((endCycle_runState _).symm.trans ht)
  exact ⟨rfl, rfl, rfl, faultedCycle_onlyChanges s c⟩

/-- Settles O11, by what each transaction leaves of a faulted core. -/
theorem faultedCoreStaysUntilReset : Obligations.FaultedCoreStaysUntilReset := by
  intro s r h
  refine ⟨_, transact_of_faulted (s := s.takeTransaction) h s.nextTransaction, fun hn => ?_, fun k b hn => ?_,
    fun image hn => ?_, fun hn => ?_, fun hn => afterFaulted_runState (s := s.takeTransaction) h hn, fun hn => ?_⟩ <;>
    rw [hn]
  · exact ⟨rfl, rfl⟩
  · exact ⟨(setKey_get s k k b).trans (if_pos rfl), (setKey_onlyChanges s.takeTransaction k b).ofTransaction .done⟩
  · exact ⟨rfl, rfl⟩
  · rfl
  · rfl

end Sys2Proof.Proofs
end

section
/-! O46, O56: the reset state, and the run from it with no program loaded: one zero word after another up to the end
of memory (70_reset_and_hazards.md R250, R254). -/

namespace Sys2Proof.Machine

/-- A run that has come to a state goes on with a step of that state. -/
theorem run_succ_of_run {M : Host.Core} {k : Nat} {s t : M.State} (h : M.run k s = .next t) :
    M.run (k + 1) s = M.step t := by
  induction k generalizing s with
  | zero =>
    obtain rfl : s = t := Host.Outcome.next.inj h
    rw [Host.Core.run]
    cases M.step s <;> rfl
  | succ k ih =>
    rw [Host.Core.run] at h ⊢
    cases hs : M.step s with
    | next u => exact ih (by simpa only [hs] using h)
    | fault r => simp [hs] at h
    | refused r => simp [hs] at h

theorem decodeWord_zero : decodeWord 0x0000 = .error (.unallocatedFamily0 0x0000) := rfl

/-- Every byte above the font is 0. -/
def State.NoProgram (s : State) : Prop := ∀ a, 80 ≤ a → s.readByte a = 0

/-- A running core under `Skip`, with no program and an empty schedule, at the `k`-th word from 0x200 on. -/
structure AtZeroWord (k : Nat) (s : State) : Prop where
  pending : s.pending = []
  runState : s.runState = .running
  policy : s.params.unknownOpcode = .skip
  noProgram : s.NoProgram
  pc : s.pc.toNat = 0x200 + 2 * k

section

variable {s : State} {k : Nat}

theorem State.NoProgram.fetch (h : s.NoProgram) (hlow : 80 ≤ s.pc.toNat) (hpc : s.pc.toNat + 1 ≤ 0xFFF) :
    s.fetch = some 0x0000 := by
  rw [fetch_eq_some s hpc, h _ hlow, h _ (Nat.le_add_right_of_le hlow)]
  rfl

theorem noProgram_of_reset (h : s.toArch = Arch.reset) : s.NoProgram := (atReset_of_arch h).zeros

theorem atZeroWord_reset : AtZeroWord 0 State.reset := ⟨rfl, rfl, rfl, noProgram_of_reset rfl, rfl⟩

/-- The cycle at a zero word inside memory reports it, completes, and leaves the core at the next word. -/
theorem AtZeroWord.stepsOver (h : AtZeroWord k s) (hk : k < 1792) : ∃ t, step s = .next t ∧ AtZeroWord (k + 1) t ∧
    t.report = some ⟨s.pc, 0x0000⟩ ∧ t.reply = .completed := by
  have hpc := h.pc
  have hfetch : s.fetch = some 0x0000 := h.noProgram.fetch (by omega) (by omega)
  have hnext : (s.pc + 2).toNat = 0x200 + 2 * (k + 1) := by simp [BitVec.toNat_add]; omega
  exact ⟨_, step_of_skipped s (nextTransaction_nil h.pending) h.runState hfetch decodeWord_zero h.policy,
    ⟨congrArg List.tail h.pending, h.runState, h.policy, h.noProgram, hnext⟩, rfl, rfl⟩

/-- The run from reset comes to every word, and to the end of memory after the last one. -/
theorem run_reset_atZeroWord (hk : k ≤ 1792) :
    ∃ s, Host.Core.run Sys2Proof.core k State.reset = .next s ∧ AtZeroWord k s := by
  induction k with
  | zero => exact ⟨_, rfl, atZeroWord_reset⟩
  | succ k ih =>
    obtain ⟨s, hrun, hs⟩ := ih (Nat.le_of_succ_le hk)
    obtain ⟨t, hstep, ht, -, -⟩ := hs.stepsOver hk
    exact ⟨t, (run_succ_of_run hrun).trans hstep, ht⟩

/-- At the end of memory the fetch faults. -/
theorem AtZeroWord.faultsAtEnd (h : AtZeroWord 1792 s) :
    ∃ t, step s = .next t ∧ t.runState = .faulted ⟨.fetchOutOfBounds, 0x1000⟩ := by
  have hpc : s.pc = 0x1000 := BitVec.eq_of_toNat_eq h.pc
  have hfetch : s.fetch = none := (fetch_eq_none s).2 (by rw [hpc]; decide)
  refine ⟨_, step_of_fetch_none s (nextTransaction_nil h.pending) h.runState hfetch, ?_⟩
  simp [hpc]

end

end Sys2Proof.Machine

namespace Sys2Proof.Proofs

open Sys2Proof.Machine

/-- Settles O46: every core with the reset values meets the invariant. -/
theorem resetMeetsInvariant : Obligations.ResetMeetsInvariant := inv_of_reset rfl

/-- Settles O56: the run comes to the zero words one by one, each is stepped over, and the fetch at their end faults;
under `Fault` the first one faults. -/
theorem emptyMemoryRunsToItsEnd : Obligations.EmptyMemoryRunsToItsEnd := by
  refine ⟨fun k hk => ?_, ?_, ?_⟩
  · obtain ⟨s, hrun, hs⟩ := run_reset_atZeroWord (Nat.le_of_lt hk)
    obtain ⟨t, hstep, -, hreport, hreply⟩ := hs.stepsOver hk
    exact ⟨s, t, hrun, hstep, hs.pc, hreport, hreply⟩
  · obtain ⟨s, hrun, hs⟩ := run_reset_atZeroWord (Nat.le_refl 1792)
    obtain ⟨t, hstep, ht⟩ := hs.faultsAtEnd
    exact ⟨t, (run_succ_of_run hrun).trans hstep, ht⟩
  · have hfetch := (noProgram_of_reset (s := { State.reset with params := ⟨Config.defaultFont, .fault⟩ }) rfl).fetch
      (by decide) (by decide)
    exact ⟨_, step_of_unknownFault _ rfl rfl hfetch decodeWord_zero rfl, rfl⟩

end Sys2Proof.Proofs
end

section
/-! O18: the schedule (40_cycle_driver.md R100; log entries 4, 5, 7). The schedule's shape fixes both what is issued
and what is left of it. -/

namespace Sys2Proof.Machine

section

variable {s : State}

theorem nextTransaction_cons {x : Transaction} {xs : List Transaction} (h : s.pending = x :: xs) :
    s.nextTransaction = x := by
  rw [State.nextTransaction, h, List.headD_cons]

theorem takeTransaction_cons {x : Transaction} {xs : List Transaction} (h : s.pending = x :: xs) :
    s.takeTransaction = { s with pending := xs, report := none } := by
  rw [State.takeTransaction, h, List.tail_cons]

/-- Nothing is taken off an empty schedule. -/
theorem takeTransaction_nil (h : s.pending = []) : s.takeTransaction = { s with report := none } := by
  rw [State.takeTransaction, h, List.tail_nil, ← h]

/-- What is outside the core goes on through a reset (log entry 7). -/
theorem resetCore_params (s : State) : (resetCore s).params = s.params := rfl

theorem resetCore_draws (s : State) : (resetCore s).draws = s.draws := rfl

end

end Sys2Proof.Machine

namespace Sys2Proof.Proofs

open Sys2Proof.Machine

/-- Settles O18, by the shape of the schedule; a reset keeps what is outside the core. -/
theorem stepIssuesNextTransaction : Obligations.StepIssuesNextTransaction := by
  refine ⟨fun s x xs h => ?_, fun s h => ?_, fun s hn => ?_⟩
  · rw [step_of_issued (nextTransaction_cons h), takeTransaction_cons h]
  · rw [step_of_issued (nextTransaction_nil h), takeTransaction_nil h]
  · exact ⟨_, step_of_issued hn, resetCore_params s.takeTransaction, resetCore_draws s.takeTransaction⟩

end Sys2Proof.Proofs
end
